-- ==== Sys2Proof/Word.lean ====
section
/-! DEFINITION. The two data widths of the machine. -/

namespace Sys2Proof

/-- "16-bit unsigned storage/compute unit, the machine's native data size" (R5, R15). -/
abbrev Word := BitVec 16

/-- A character on the host interface (R5, R12), and half of a Word where a service splits one (R55). -/
abbrev Byte := BitVec 8

end Sys2Proof
end

