-- ==== Sys2Proof/Syntax.lean ====
section
/-! DEFINITION. The instructions, as syntax: one constructor for every row of spec/opcode_table.json. -/

namespace Sys2Proof

/-- The eight general registers (R21). -/
inductive Reg where
  | r0 | r1 | r2 | r3 | r4 | r5 | r6 | r7
  deriving DecidableEq, Repr

/-- One constructor for every row of the opcode table; the operands are the fields of R81 that the row's format (R82)
has, at their own widths. -/
inductive Instr where
  /-- BR: branch if the flag now set is one the mask names (R121). -/
  | br (n z p : Bool) (off : BitVec 9)
  /-- ADD, register mode (R110). -/
  | addReg (dr sr1 sr2 : Reg)
  /-- ADD, immediate mode (R111). -/
  | addImm (dr sr1 : Reg) (imm : BitVec 5)
  /-- LD: load, PC-relative (R130). -/
  | ld (dr : Reg) (off : BitVec 9)
  /-- ST: store, PC-relative (R140). -/
  | st (sr : Reg) (off : BitVec 9)
  /-- JSR: jump to subroutine, PC-relative (R123). -/
  | jsr (off : BitVec 11)
  /-- JSRR: jump to subroutine, register (R124). -/
  | jsrr (base : Reg)
  /-- AND, register mode (R112). -/
  | andReg (dr sr1 sr2 : Reg)
  /-- AND, immediate mode (R113). -/
  | andImm (dr sr1 : Reg) (imm : BitVec 5)
  /-- LDR: load, base plus offset (R132). -/
  | ldr (dr base : Reg) (off : BitVec 6)
  /-- STR: store, base plus offset (R142). -/
  | str (sr base : Reg) (off : BitVec 6)
  /-- RTI, opcode 8: undefined, fatal (R170). -/
  | rti
  /-- NOT (R114). -/
  | not (dr sr1 : Reg)
  /-- LDI: load, indirect (R131). -/
  | ldi (dr : Reg) (off : BitVec 9)
  /-- STI: store, indirect (R141). -/
  | sti (sr : Reg) (off : BitVec 9)
  /-- JMP: register jump; RET when the base register is R7 (R122). -/
  | jmp (base : Reg)
  /-- RES, opcode 13, reserved: undefined, fatal (R171). -/
  | res
  /-- LEA: load effective address (R133). -/
  | lea (dr : Reg) (off : BitVec 9)
  /-- TRAP with any vector (R150); the six defined vectors have constructors of their own, and the decoder gives those
  (R89), so this one is well formed for the undefined vectors only. -/
  | trap (vect : BitVec 8)
  /-- TRAP x20, service GETC (R152). -/
  | getc
  /-- TRAP x21, service OUT (R153). -/
  | out
  /-- TRAP x22, service PUTS (R154). -/
  | puts
  /-- TRAP x23, service IN (R155). -/
  | inChar
  /-- TRAP x24, service PUTSP (R156). -/
  | putsp
  /-- TRAP x25, service HALT (R157). -/
  | halt
  deriving DecidableEq, Repr

end Sys2Proof
end

