-- ==== Sys2Proof/WellFormed.lean ====
section
/-! DEFINITION. Which terms of `Instr` are instructions. Every operand has the width of its field, so the only term that is
none is a TRAP with a defined vector: that word is the service's own row (R89). -/

namespace Sys2Proof

/-- The six defined trap vectors, 0x20 to 0x25 (R151). -/
def definedVector (v : BitVec 8) : Bool := decide (0x20 ≤ v.toNat) && decide (v.toNat ≤ 0x25)

/-- The term is an instruction the decoder can give. -/
def Instr.wellFormed : Instr → Bool
  | .trap v => !definedVector v
  | .br _ _ _ _ => true
  | .addReg _ _ _ => true
  | .addImm _ _ _ => true
  | .ld _ _ => true
  | .st _ _ => true
  | .jsr _ => true
  | .jsrr _ => true
  | .andReg _ _ _ => true
  | .andImm _ _ _ => true
  | .ldr _ _ _ => true
  | .str _ _ _ => true
  | .rti => true
  | .not _ _ => true
  | .ldi _ _ => true
  | .sti _ _ => true
  | .jmp _ => true
  | .res => true
  | .lea _ _ => true
  | .getc => true
  | .out => true
  | .puts => true
  | .inChar => true
  | .putsp => true
  | .halt => true

end Sys2Proof
end

