-- ==== Sys2Proof/Decode.lean ====
section
/-! DEFINITION. From words (and bytes) to instructions and back: the formats of R82, the opcode map of R84, the mode bits
of R85 and the procedure of R89; the rows of spec/opcode_table.json; and the encoder, with the canonical don't-care bits
of R88. -/

namespace Sys2Proof

/-- The register a 3-bit index names (R83: "always names one of the eight registers"). -/
def Reg.ofBits (b : BitVec 3) : Reg :=
  match b.toNat with
  | 0 => .r0
  | 1 => .r1
  | 2 => .r2
  | 3 => .r3
  | 4 => .r4
  | 5 => .r5
  | 6 => .r6
  | _ => .r7

/-- The 3-bit index of a register. -/
def Reg.bits : Reg → BitVec 3
  | .r0 => 0
  | .r1 => 1
  | .r2 => 2
  | .r3 => 3
  | .r4 => 4
  | .r5 => 5
  | .r6 => 6
  | .r7 => 7

/-! The fields of R81, as slices of the instruction word. -/

/-- `opcode = ir[15:12]`. -/
def fieldOpcode (w : Word) : BitVec 4 := w.extractLsb' 12 4

/-- `DR = ir[11:9]`; the store instructions call the same position `SR`. -/
def fieldDr (w : Word) : Reg := Reg.ofBits (w.extractLsb' 9 3)

/-- `SR1 = ir[8:6]`; JMP, JSRR, LDR and STR call the same position `BaseR`. -/
def fieldSr1 (w : Word) : Reg := Reg.ofBits (w.extractLsb' 6 3)

/-- `SR2 = ir[2:0]`. -/
def fieldSr2 (w : Word) : Reg := Reg.ofBits (w.extractLsb' 0 3)

/-- `imm5 = ir[4:0]`. -/
def fieldImm5 (w : Word) : BitVec 5 := w.extractLsb' 0 5

/-- `offset6 = ir[5:0]`. -/
def fieldOffset6 (w : Word) : BitVec 6 := w.extractLsb' 0 6

/-- `PCoffset9 = ir[8:0]`. -/
def fieldPcOffset9 (w : Word) : BitVec 9 := w.extractLsb' 0 9

/-- `PCoffset11 = ir[10:0]`. -/
def fieldPcOffset11 (w : Word) : BitVec 11 := w.extractLsb' 0 11

/-- `trapvect8 = ir[7:0]`. -/
def fieldVector (w : Word) : BitVec 8 := w.extractLsb' 0 8

/-- The row of a TRAP word: a service's own row for the six defined vectors, the row TRAP otherwise (R89, R151). -/
def decodeTrap (v : BitVec 8) : Instr :=
  match v.toNat with
  | 0x20 => .getc
  | 0x21 => .out
  | 0x22 => .puts
  | 0x23 => .inChar
  | 0x24 => .putsp
  | 0x25 => .halt
  | _ => .trap v

/-- Decoding one word (R89): total and unambiguous. The opcode selects; `ir[5]` splits ADD and AND, `ir[11]` splits opcode
4 (R85); TRAP is split by its vector; opcodes 8 and 13 are the two undefined ones (R86). The opcode has four bits, so the
last line is opcode 15 alone. -/
def decodeWord (w : Word) : Instr :=
  match (fieldOpcode w).toNat with
  | 0 => .br (w.getLsbD 11) (w.getLsbD 10) (w.getLsbD 9) (fieldPcOffset9 w)
  | 1 => if w.getLsbD 5 then .addImm (fieldDr w) (fieldSr1 w) (fieldImm5 w)
         else .addReg (fieldDr w) (fieldSr1 w) (fieldSr2 w)
  | 2 => .ld (fieldDr w) (fieldPcOffset9 w)
  | 3 => .st (fieldDr w) (fieldPcOffset9 w)
  | 4 => if w.getLsbD 11 then .jsr (fieldPcOffset11 w) else .jsrr (fieldSr1 w)
  | 5 => if w.getLsbD 5 then .andImm (fieldDr w) (fieldSr1 w) (fieldImm5 w)
         else .andReg (fieldDr w) (fieldSr1 w) (fieldSr2 w)
  | 6 => .ldr (fieldDr w) (fieldSr1 w) (fieldOffset6 w)
  | 7 => .str (fieldDr w) (fieldSr1 w) (fieldOffset6 w)
  | 8 => .rti
  | 9 => .not (fieldDr w) (fieldSr1 w)
  | 10 => .ldi (fieldDr w) (fieldPcOffset9 w)
  | 11 => .sti (fieldDr w) (fieldPcOffset9 w)
  | 12 => .jmp (fieldSr1 w)
  | 13 => .res
  | 14 => .lea (fieldDr w) (fieldPcOffset9 w)
  | _ => decodeTrap (fieldVector w)

/-- Why a byte sequence is not the start of an instruction. -/
inductive DecodeError where
  /-- Fewer than the two bytes of one Word are left (R80: every instruction is exactly one Word). -/
  | truncated
  deriving DecidableEq, Repr

/-- Decoding the first instruction of a byte sequence, the bytes of a Word in the order of the image file: bits 15:8 first
(R55 (b); log 26). Every Word decodes, so the one way to fail is to run out of bytes. -/
def decode : List Byte → Except DecodeError (Instr × List Byte)
  | hi :: lo :: rest => .ok (decodeWord (hi ++ lo), rest)
  | [_] => .error .truncated
  | [] => .error .truncated

/-- The two bytes of a word in that same order. -/
def wordBytes (w : Word) : List Byte := [w.extractLsb' 8 8, w.extractLsb' 0 8]

/-- The host's question of the table: the instruction the decoder reads from the one-Word instruction whose bits are `w`. -/
def decodeTableWord (nbits w : Nat) : Option Instr :=
  match decode (wordBytes (BitVec.ofNat 16 (w % 2 ^ nbits))) with
  | .ok (i, _) => some i
  | .error _ => none

/-! ## The encoder -/

/-- Format RRR (R82), `oooo ddd aaa 0 -- bbb`, with don't-care bits `dc`. -/
def formatRRR (op : BitVec 4) (d a : Reg) (dc : BitVec 2) (b : Reg) : Word :=
  op ++ d.bits ++ a.bits ++ (0 : BitVec 1) ++ dc ++ b.bits

/-- Format RRI, `oooo ddd aaa 1 iiiii`. -/
def formatRRI (op : BitVec 4) (d a : Reg) (imm : BitVec 5) : Word := op ++ d.bits ++ a.bits ++ (1 : BitVec 1) ++ imm

/-- Format RR, `1001 ddd aaa ------`. -/
def formatRR (d a : Reg) (dc : BitVec 6) : Word := (9 : BitVec 4) ++ d.bits ++ a.bits ++ dc

/-- Format BR, `0000 n z p iiiiiiiii`. -/
def formatBR (n z p : Bool) (off : BitVec 9) : Word :=
  (0 : BitVec 4) ++ BitVec.ofBool n ++ BitVec.ofBool z ++ BitVec.ofBool p ++ off

/-- Format B, `1100 --- aaa ------`. -/
def formatB (dc : BitVec 3) (a : Reg) (dc' : BitVec 6) : Word := (12 : BitVec 4) ++ dc ++ a.bits ++ dc'

/-- Format J11, `0100 1 iiiiiiiiiii`. -/
def formatJ11 (off : BitVec 11) : Word := (4 : BitVec 4) ++ (1 : BitVec 1) ++ off

/-- Format JB, `0100 0 -- aaa ------`. -/
def formatJB (dc : BitVec 2) (a : Reg) (dc' : BitVec 6) : Word := (4 : BitVec 4) ++ (0 : BitVec 1) ++ dc ++ a.bits ++ dc'

/-- Format RP9, `oooo ddd iiiiiiiii`. -/
def formatRP9 (op : BitVec 4) (d : Reg) (off : BitVec 9) : Word := op ++ d.bits ++ off

/-- Format RB6, `oooo ddd aaa iiiiii`. -/
def formatRB6 (op : BitVec 4) (d a : Reg) (off : BitVec 6) : Word := op ++ d.bits ++ a.bits ++ off

/-- Format T, `1111 ---- vvvvvvvv`. -/
def formatT (dc : BitVec 4) (v : BitVec 8) : Word := (15 : BitVec 4) ++ dc ++ v

/-- Format X, `oooo ------------`. -/
def formatX (op : BitVec 4) (dc : BitVec 12) : Word := op ++ dc

/-- The word of an instruction: its format with the opcode of R84 and the canonical don't-care bits of R88 (NOT 111111,
all others zero; log 13). -/
def encodeWord : Instr → Word
  | .br n z p off => formatBR n z p off
  | .addReg d a b => formatRRR 1 d a 0 b
  | .addImm d a imm => formatRRI 1 d a imm
  | .ld d off => formatRP9 2 d off
  | .st d off => formatRP9 3 d off
  | .jsr off => formatJ11 off
  | .jsrr a => formatJB 0 a 0
  | .andReg d a b => formatRRR 5 d a 0 b
  | .andImm d a imm => formatRRI 5 d a imm
  | .ldr d a off => formatRB6 6 d a off
  | .str d a off => formatRB6 7 d a off
  | .rti => formatX 8 0
  | .not d a => formatRR d a 0x3F
  | .ldi d off => formatRP9 10 d off
  | .sti d off => formatRP9 11 d off
  | .jmp a => formatB 0 a 0
  | .res => formatX 13 0
  | .lea d off => formatRP9 14 d off
  | .trap v => formatT 0 v
  | .getc => formatT 0 0x20
  | .out => formatT 0 0x21
  | .puts => formatT 0 0x22
  | .inChar => formatT 0 0x23
  | .putsp => formatT 0 0x24
  | .halt => formatT 0 0x25

/-- The bytes of an instruction. -/
def encode (i : Instr) : List Byte := wordBytes (encodeWord i)

/-! ## The rows of the opcode table -/

/-- A row of spec/opcode_table.json: the bits its mask covers have the values of its pattern (the table's "match"). -/
structure Row where
  mask    : Word
  pattern : Word
  deriving DecidableEq, Repr

/-- The row of each constructor, as the table lists its mask and its match. -/
def Instr.row : Instr → Row
  | .br _ _ _ _ => ⟨0xF000, 0x0000⟩
  | .addReg _ _ _ => ⟨0xF020, 0x1000⟩
  | .addImm _ _ _ => ⟨0xF020, 0x1020⟩
  | .ld _ _ => ⟨0xF000, 0x2000⟩
  | .st _ _ => ⟨0xF000, 0x3000⟩
  | .jsr _ => ⟨0xF800, 0x4800⟩
  | .jsrr _ => ⟨0xF800, 0x4000⟩
  | .andReg _ _ _ => ⟨0xF020, 0x5000⟩
  | .andImm _ _ _ => ⟨0xF020, 0x5020⟩
  | .ldr _ _ _ => ⟨0xF000, 0x6000⟩
  | .str _ _ _ => ⟨0xF000, 0x7000⟩
  | .rti => ⟨0xF000, 0x8000⟩
  | .not _ _ => ⟨0xF000, 0x9000⟩
  | .ldi _ _ => ⟨0xF000, 0xA000⟩
  | .sti _ _ => ⟨0xF000, 0xB000⟩
  | .jmp _ => ⟨0xF000, 0xC000⟩
  | .res => ⟨0xF000, 0xD000⟩
  | .lea _ _ => ⟨0xF000, 0xE000⟩
  | .trap _ => ⟨0xF000, 0xF000⟩
  | .getc => ⟨0xF0FF, 0xF020⟩
  | .out => ⟨0xF0FF, 0xF021⟩
  | .puts => ⟨0xF0FF, 0xF022⟩
  | .inChar => ⟨0xF0FF, 0xF023⟩
  | .putsp => ⟨0xF0FF, 0xF024⟩
  | .halt => ⟨0xF0FF, 0xF025⟩

/-- The bits some field or fixed pattern of the instruction's format covers: every bit but the don't-care bits `-` of
R82, which R88 lists. -/
def Instr.careMask : Instr → Word
  | .addReg _ _ _ => 0xFFE7
  | .andReg _ _ _ => 0xFFE7
  | .not _ _ => 0xFFC0
  | .jmp _ => 0xF1C0
  | .jsrr _ => 0xF9C0
  | .trap _ => 0xF0FF
  | .getc => 0xF0FF
  | .out => 0xF0FF
  | .puts => 0xF0FF
  | .inChar => 0xF0FF
  | .putsp => 0xF0FF
  | .halt => 0xF0FF
  | .rti => 0xF000
  | .res => 0xF000
  | .br _ _ _ _ => 0xFFFF
  | .addImm _ _ _ => 0xFFFF
  | .ld _ _ => 0xFFFF
  | .st _ _ => 0xFFFF
  | .jsr _ => 0xFFFF
  | .andImm _ _ _ => 0xFFFF
  | .ldr _ _ _ => 0xFFFF
  | .str _ _ _ => 0xFFFF
  | .ldi _ _ => 0xFFFF
  | .sti _ _ => 0xFFFF
  | .lea _ _ => 0xFFFF

end Sys2Proof
end

