-- ==== Sys2Proof/Config.lean ====
section
/-! DEFINITION. What the spec leaves to whoever uses the machine: the two texts of R5 that are parameters (their default
values stand in Machine/Params.lean), and the free values, constants without a body about which nothing can be proved. -/

namespace Sys2Proof

/-- The two parameters of R5 that the services of the trap gateway read (decisions D12, D13).
A state carries them (`State.cfg`), so a statement about every state holds whatever the two texts are. -/
structure Config where
  /-- The bytes the IN service writes before it reads (R155). -/
  inPrompt   : List Byte
  /-- The bytes the HALT service writes (R157). -/
  haltNotice : List Byte
  deriving DecidableEq, Repr

/-- FREE VALUE. Bits 14:0 of KBSR after a ready poll, when they were not zero before it: "any value" (U4 of
93_implementation_defined.md, to which R51 (d) sends a model). Applied to the state's draw counter; log 9. -/
opaque Config.kbsrLow : Nat → BitVec 15

/-- FREE VALUE. `fault_ir` after the fetch read itself has raised HostIOFailure: unspecified (R180, R186, U9). Applied to
the state's draw counter; log 10. -/
opaque Config.fetchFaultIr : Nat → Word

end Sys2Proof
end

