-- ==== Sys2Proof/Machine/Params.lean ====
section
/-! DEFINITION. The default values of the parameters `in_prompt` and `halt_notice` (R5; log 11). -/

namespace Sys2Proof

/-- The default texts of R5: "Enter a character: ", and "HALT" followed by a line feed. -/
def Config.default : Config where
  inPrompt   := [0x45, 0x6E, 0x74, 0x65, 0x72, 0x20, 0x61, 0x20, 0x63, 0x68, 0x61, 0x72, 0x61, 0x63, 0x74, 0x65, 0x72,
                 0x3A, 0x20]
  haltNotice := [0x48, 0x41, 0x4C, 0x54, 0x0A]

end Sys2Proof
end

