-- ==== Sys2Proof/Machine/State.lean ====
section
/-! DEFINITION. The state of the machine, as plain data: everything R20 lists, the host as the core sees it, and the state
after reset (R38, R210). -/

namespace Sys2Proof.Machine

/-- The eight general registers (R21): none is hardwired, there are no banks. -/
structure RegFile where
  r0 : Word
  r1 : Word
  r2 : Word
  r3 : Word
  r4 : Word
  r5 : Word
  r6 : Word
  r7 : Word
  deriving DecidableEq, Repr

/-- The condition flags (R26): exactly one of the three at all times. `Cond.bits` gives the 3-bit one-hot value. -/
inductive Cond where
  | positive | zero | negative
  deriving DecidableEq, Repr

/-- The run state (R32). -/
inductive RunState where
  | running | halted
  deriving DecidableEq, Repr

/-- The fault cause (R33, R182); `FaultCause.code` gives its number. -/
inductive FaultCause where
  /-- No fatal error: after reset, and after a normal HALT. -/
  | none
  /-- Opcode 8 or 13 was dispatched (R183). -/
  | undefinedOpcode
  /-- TRAP with a vector outside 0x20 to 0x25 (R184). -/
  | undefinedTrapVector
  /-- A host operation failed (R185). -/
  | hostIOFailure
  deriving DecidableEq, Repr

/-- Memory (R29): 65536 words of 16 bits, held as bytes. The word at address `a` is the two cells with the keys `2a`
(bits 15:8) and `2a + 1` (bits 7:0), the order of the image file (R55 (b)); a cell that is not listed reads as zero
(R212). No program can see the split: the core has no byte address (R55). Log 1, log 2. -/
structure Memory where
  cells : List Host.Cell
  deriving DecidableEq, Repr

/-- The one canonical form of a memory: keys strictly rising and inside the space, no cell that holds what an unlisted one
reads as. -/
abbrev Memory.wf (m : Memory) : Prop :=
  m.cells.Pairwise (fun c d => c.1 < d.1) ∧ ∀ c ∈ m.cells, c.1 < 0x20000 ∧ c.2 ≠ 0

/-- What the host does at one of its turns. The host has a turn at every boundary between two steps and one at every host
operation (R34, R37: arrivals, failures and stop requests are the host's, at times of its own choosing; log 5). -/
structure HostTurn where
  /-- Characters that join the input queue at this turn (R34). -/
  arrivals : List Byte
  /-- The input stream ends for good after them (R185). -/
  ends     : Bool
  /-- The host requests a stop (R197). -/
  stops    : Bool
  /-- The host operation of this turn reports failure (R185); at a boundary between two steps there is none to fail. -/
  fails    : Bool
  deriving DecidableEq, Repr

/-- A turn at which the host does nothing. -/
def HostTurn.quiet : HostTurn := ⟨[], false, false, false⟩

/-- How far the step in progress has come. Every step but the four below runs to its end in one step of the model. -/
inductive Phase where
  /-- Between two steps: the next thing to happen is a fetch. -/
  | between
  /-- Blocked in the HostReadChar of GETC (R161). -/
  | getcRead
  /-- Blocked in the HostReadChar of IN, the prompt written (R155, R161). -/
  | inRead
  /-- Inside the endless scan of PUTS over a memory without a zero Word (R154, R198). -/
  | putsScan
  /-- Inside the endless scan of PUTSP over a memory without a zero Word (R156, R198). -/
  | putspScan
  deriving DecidableEq, Repr

/-- The state. -/
structure State where
  /-- `x[0]` to `x[7]` (R21). -/
  regs          : RegFile
  /-- The program counter (R24). -/
  pc            : Word
  /-- The condition flags (R26). -/
  cond          : Cond
  /-- The instruction latch (R28). -/
  ir            : Word
  /-- `M`, the keyboard's two registers included (R29, R30). -/
  mem           : Memory
  /-- RUNNING or HALTED (R32). -/
  runState      : RunState
  /-- The fault record (R33): its cause, -/
  faultCause    : FaultCause
  /-- the Word that was being executed, -/
  faultIr       : Word
  /-- and the address it was fetched from. -/
  faultAddr     : Word
  /-- The host input stream: the characters queued now, oldest first (R34). -/
  input         : List Byte
  /-- The host input stream has ended for good (R185). -/
  inputEnded    : Bool
  /-- The host output stream, oldest first (R35). -/
  output        : List Byte
  /-- A stop request is pending (R188, R197). -/
  stopRequested : Bool
  /-- What the host does at its coming turns, the next one first; when it is used up the host is quiet (log 4). -/
  schedule      : List HostTurn
  /-- How far the step in progress has come. -/
  phase         : Phase
  /-- The parameters `in_prompt` and `halt_notice` (R5, R37). -/
  cfg           : Config
  /-- The model's own: how many free values have been drawn (log 9, log 10). -/
  draws         : Nat
  deriving DecidableEq, Repr

/-- Why a step could stop with a fault of the model: there is no reason. "Every defined opcode always succeeds" (R65), the
three fatal errors of R182 are taken and lead to a next state (R186), and a hang goes on for ever (R198). The type is
empty on purpose; log 21. -/
inductive Fault where
  deriving DecidableEq, Repr

/-- Why an instruction could be refused. -/
inductive Refusal where
  /-- The instruction has no meaning yet. Safe. No arm of `exec` raises it: every instruction has its meaning. -/
  | notModelled (mnemonic : String)
  deriving DecidableEq, Repr

/-- The state after reset (R38, R210) with the empty image: memory zero, registers zero, `cond` ZERO, `pc` 0x3000,
RUNNING, no fault, no output. `ir`, `faultIr` and `faultAddr` are unspecified there (log 3), the input stream and the
schedule are the host's (log 4), and `cfg` holds the default texts of R5 (log 11). -/
def State.reset : State where
  regs          := ⟨0, 0, 0, 0, 0, 0, 0, 0⟩
  pc            := 0x3000
  cond          := .zero
  ir            := 0
  mem           := ⟨[]⟩
  runState      := .running
  faultCause    := .none
  faultIr       := 0
  faultAddr     := 0
  input         := []
  inputEnded    := false
  output        := []
  stopRequested := false
  schedule      := []
  phase         := .between
  cfg           := Config.default
  draws         := 0

end Sys2Proof.Machine
end

