-- ==== Sys2Proof/Machine/Ops.lean ====
section
/-! DEFINITION. The operations the blocks of the core offer each other (R6 to R13): registers, memory, the host, the
keyboard poll, fetch, and taking a fatal error. An operation that may raise HostIOFailure answers a `Res`. -/

namespace Sys2Proof.Machine

/-! ## Register file (R8) -/

/-- `x[i]`. -/
def RegFile.get (f : RegFile) : Reg → Word
  | .r0 => f.r0
  | .r1 => f.r1
  | .r2 => f.r2
  | .r3 => f.r3
  | .r4 => f.r4
  | .r5 => f.r5
  | .r6 => f.r6
  | .r7 => f.r7

/-- `x[i] <- v`. -/
def RegFile.set (f : RegFile) (r : Reg) (v : Word) : RegFile :=
  match r with
  | .r0 => { f with r0 := v }
  | .r1 => { f with r1 := v }
  | .r2 => { f with r2 := v }
  | .r3 => { f with r3 := v }
  | .r4 => { f with r4 := v }
  | .r5 => { f with r5 := v }
  | .r6 => { f with r6 := v }
  | .r7 => { f with r7 := v }

/-- `x[i]` in a state. -/
def State.reg (s : State) (r : Reg) : Word := s.regs.get r

/-- `x[i] <- v` in a state. -/
def State.setReg (s : State) (r : Reg) (v : Word) : State := { s with regs := s.regs.set r v }

/-- `x[7] <- pc`, the link of JSR, JSRR and TRAP (R22); `pc` is the incremented one. -/
def State.link (s : State) : State := s.setReg .r7 s.pc

/-- `zext_8(c)`: a character as a Word, bits 15:8 zero (R16; log 17). -/
def zext8 (c : Byte) : Word := c.setWidth 16

/-- `w[7:0]`. -/
def lowByte (w : Word) : Byte := w.extractLsb' 0 8

/-- `w[15:8]`. -/
def highByte (w : Word) : Byte := w.extractLsb' 8 8

/-! ## Memory (R11) -/

/-- The byte with a key; one that is not listed is zero (R212). -/
def cellGet : List Host.Cell → Nat → Byte
  | [], _ => 0
  | (k, b) :: rest, a => if k = a then b else cellGet rest a

/-- The list without the cells of a key. -/
def cellErase : List Host.Cell → Nat → List Host.Cell
  | [], _ => []
  | (k, b) :: rest, a => if k = a then cellErase rest a else (k, b) :: cellErase rest a

/-- A cell put at its place in a list of rising keys. -/
def cellInsert : List Host.Cell → Nat → Byte → List Host.Cell
  | [], a, b => [(a, b)]
  | (k, c) :: rest, a, b => if a < k then (a, b) :: (k, c) :: rest else (k, c) :: cellInsert rest a b

/-- A byte written, in canonical form: writing zero removes the cell. -/
def cellSet (l : List Host.Cell) (a : Nat) (b : Byte) : List Host.Cell :=
  if b = 0 then cellErase l a else cellInsert (cellErase l a) a b

/-- `M[a]` (R29). -/
def Memory.read (m : Memory) (a : Word) : Word := cellGet m.cells (2 * a.toNat) ++ cellGet m.cells (2 * a.toNat + 1)

/-- `M[a] <- v`. -/
def Memory.write (m : Memory) (a v : Word) : Memory :=
  ⟨cellSet (cellSet m.cells (2 * a.toNat) (highByte v)) (2 * a.toNat + 1) (lowByte v)⟩

/-- The address of KBSR, the keyboard-status register (R30). -/
def kbsrAddr : Word := 0xFE00

/-- The address of KBDR, the keyboard-data register (R30). -/
def kbdrAddr : Word := 0xFE02

/-- KBSR, which is a word of memory (R30). -/
def State.kbsr (s : State) : Word := s.mem.read kbsrAddr

/-- KBDR, which is a word of memory (R30). -/
def State.kbdr (s : State) : Word := s.mem.read kbdrAddr

/-- `MemPeek(addr)` (R53): no side effect at any address. -/
def State.memPeek (s : State) (a : Word) : Word := s.mem.read a

/-- `MemWrite(addr, 1, v)` (R52, R54): a plain store at every address. -/
def State.memWrite (s : State) (a v : Word) : State := { s with mem := s.mem.write a v }

/-! ## Taking a fatal error (R186) -/

/-- `raise E(info)` is the whole of trap entry (R186): the step in progress is abandoned, the fault record is written and
the machine is HALTED. There is no return from it (R189). -/
def State.enterFault (s : State) (cause : FaultCause) (faultIr faultAddr : Word) : State :=
  { s with runState := .halted, faultCause := cause, faultIr := faultIr, faultAddr := faultAddr, phase := .between }

/-- A fatal error raised while an instruction executes: `fault_ir <- ir`, `fault_addr <- pc - 1`, the address the
instruction was fetched from (R33, R186). -/
def State.raise (s : State) (cause : FaultCause) : State := s.enterFault cause s.ir (s.pc - 1)

/-- HostIOFailure raised by the fetch read itself (R180, R186; 90_conflicts.md C9): `pc` has not been incremented and is the
address; `fault_ir` is unspecified, a free value (log 10). -/
def State.raiseAtFetch (s : State) : State :=
  { s.enterFault .hostIOFailure (Config.fetchFaultIr s.draws) s.pc with draws := s.draws + 1 }

/-! ## The host (R12, R34, R35) -/

/-- The answer of an operation that can raise HostIOFailure: a value and the state after it, or the state at the failure
(what was done before it stands, R162). -/
inductive Res (α : Type) where
  | ok (a : α) (s : State)
  | failed (s : State)

/-- What the host does at its next turn. -/
def State.nextTurn (s : State) : HostTurn := s.schedule.headD .quiet

/-- The host takes its turn: characters arrive at the end of the queue unless the stream has ended, the stream may end,
a stop request may come. No state of the core changes (R196). -/
def State.takeTurn (s : State) : State :=
  { s with
    schedule      := s.schedule.tail
    input         := if s.inputEnded then s.input else s.input ++ s.nextTurn.arrivals
    inputEnded    := s.inputEnded || s.nextTurn.ends
    stopRequested := s.stopRequested || s.nextTurn.stops }

/-- `HostPoll()` (R34): is a character queued? -/
def State.hostPoll (s : State) : Res Bool :=
  if s.nextTurn.fails then .failed s.takeTurn else .ok (!s.takeTurn.input.isEmpty) s.takeTurn

/-- One try of `HostReadChar()` (R34): the oldest queued character is removed and given; none is given when none is queued,
and the caller then waits (`State.await`); when the stream has ended for good and none is queued the call fails (R185). -/
def State.hostReadChar (s : State) : Res (Option Byte) :=
  if s.nextTurn.fails then .failed s.takeTurn
  else
    match s.takeTurn.input with
    | c :: rest => .ok (some c) { s.takeTurn with input := rest }
    | [] => if s.takeTurn.inputEnded then .failed s.takeTurn else .ok none s.takeTurn

/-- `HostWriteChar(b)` (R35): appends to the output stream. -/
def State.hostWriteChar (s : State) (b : Byte) : Res Unit :=
  if s.nextTurn.fails then .failed s.takeTurn else .ok () { s.takeTurn with output := s.takeTurn.output ++ [b] }

/-- `HostFlush()` (R160): does not change the output sequence, but can fail (R185). -/
def State.hostFlush (s : State) : Res Unit :=
  if s.nextTurn.fails then .failed s.takeTurn else .ok () s.takeTurn

/-- `HostWriteChar` of each byte, in order; the first failure ends it and what was written stays written (R162). -/
def State.hostWriteAll (s : State) : List Byte → Res Unit
  | [] => .ok () s
  | b :: bs =>
    match s.hostWriteChar b with
    | .failed s' => .failed s'
    | .ok _ s' => s'.hostWriteAll bs

/-- A stop request honoured (R197): HALTED, `fault_cause` keeps its value, no other state of the core changes; what a
blocked GETC or IN had already done stands, and it is abandoned. -/
def State.stop (s : State) : State := { s with runState := .halted, phase := .between }

/-- No character was queued (R161): the step blocks, unless a stop request is pending, which is honoured (R197). -/
def State.await (s : State) (p : Phase) : State := if s.stopRequested then s.stop else { s with phase := p }

/-! ## The keyboard and `MemRead` (R50, R51) -/

/-- KBSR after a ready poll (R51): bit 15 set; bits 14:0 zero if they were, otherwise any value (R51 (d), U4; log 9). -/
def kbsrReady (old : Word) (draw : Nat) : Word :=
  (1 : BitVec 1) ++ (if old.extractLsb' 0 15 = 0 then 0 else Config.kbsrLow draw)

/-- `KeyboardPoll()` (R51). The host has just answered that a character is queued when the read is made, so the read gives
one or fails. -/
def State.keyboardPoll (s : State) : Res Unit :=
  match s.hostPoll with
  | .failed s' => .failed s'
  | .ok false s' => .ok () (s'.memWrite kbsrAddr 0)
  | .ok true s' =>
    match s'.hostReadChar with
    | .failed s'' => .failed s''
    | .ok none s'' => .ok () (s''.memWrite kbsrAddr 0)
    | .ok (some c) s'' =>
      .ok () { (s''.memWrite kbsrAddr (kbsrReady s''.kbsr s''.draws)).memWrite kbdrAddr (zext8 c) with
        draws := s''.draws + 1 }

/-- `MemRead(addr, 1)` (R50): address 0xFE00 polls the keyboard first; no other read has a side effect. -/
def State.memRead (s : State) (a : Word) : Res Word :=
  if a = kbsrAddr then
    match s.keyboardPoll with
    | .failed s' => .failed s'
    | .ok _ s' => .ok (s'.mem.read a) s'
  else .ok (s.mem.read a) s

/-! ## Fetch (R6, R180) -/

/-- `fetch()`: `ir <- MemRead(pc, 1); pc <- pc + 1`; if the read fails, neither is written (R180). -/
def State.fetch (s : State) : Res Unit :=
  match s.memRead s.pc with
  | .failed s' => .failed s'
  | .ok w s' => .ok () { s' with ir := w, pc := s'.pc + 1 }

/-! ## Loading a program (R210 to R213) -/

/-- The state after reset with an image: `M[a] = image(a)` (R210, R212). -/
def State.boot (image : Memory) : State := { State.reset with mem := image }

/-- Words stored contiguously from an origin (R213). -/
def Memory.loadWords (m : Memory) (origin : Word) : List Word → Memory
  | [] => m
  | w :: ws => (m.write origin w).loadWords (origin + 1) ws

/-- The big-endian words of a file's bytes; none for an odd number of bytes. -/
def wordsOfBytes : List Byte → Option (List Word)
  | [] => some []
  | [_] => none
  | hi :: lo :: rest => (wordsOfBytes rest).map ((hi ++ lo) :: ·)

/-- An image file laid over a memory (R213): the first word is the load origin, the rest are stored from it. The cases the
spec leaves open (an odd number of bytes, words past 0xFFFF) load nothing here (log 23). -/
def Memory.loadFile (m : Memory) (bytes : List Byte) : Option Memory :=
  match wordsOfBytes bytes with
  | some (origin :: ws) => if origin.toNat + ws.length ≤ 65536 then some (m.loadWords origin ws) else none
  | some [] => none
  | none => none

/-- The state in which the very next step fetches and runs the Word `w`: it stands at `pc`, the machine is RUNNING between
two steps, and the host is quiet at the coming boundary (log 25). -/
def State.placeInstr (s : State) (w : Word) : State :=
  { s with
    mem           := s.mem.write s.pc w
    runState      := .running
    phase         := .between
    stopRequested := false
    schedule      := .quiet :: s.schedule }

end Sys2Proof.Machine
end

