-- ==== Sys2Proof/Machine/Flags.lean ====
section
/-! DEFINITION. The condition-flag unit (R10): the flag a value gives, `setcc`, and BR's test; and the numbers of the flags
and of the fault causes. -/

namespace Sys2Proof.Machine

/-- The 3-bit one-hot value of the flag (R26): bit 0 POSITIVE, bit 1 ZERO, bit 2 NEGATIVE. -/
def Cond.bits : Cond → BitVec 3
  | .positive => 0b001
  | .zero => 0b010
  | .negative => 0b100

/-- The flag of a value (R27). -/
def flagOf (v : Word) : Cond := if v = 0 then .zero else if v.getLsbD 15 then .negative else .positive

/-- `setcc(i)` (R27): reads `x[i]`, writes `cond`. -/
def State.setcc (s : State) (r : Reg) : State := { s with cond := flagOf (s.reg r) }

/-- `x[DR] <- v; setcc(DR)`, the end of every instruction that sets the flags (R116, R135). -/
def State.setRegCc (s : State) (r : Reg) (v : Word) : State := (s.setReg r v).setcc r

/-- `br_taken(mask)` (R10): `(mask & cond) != 0`. -/
def State.brTaken (s : State) (mask : BitVec 3) : Bool := mask &&& s.cond.bits != 0

/-- The number of a fault cause (R33, R182). -/
def FaultCause.code : FaultCause → BitVec 2
  | .none => 0
  | .undefinedOpcode => 1
  | .undefinedTrapVector => 2
  | .hostIOFailure => 3

end Sys2Proof.Machine
end

