-- ==== Sys2Proof/Machine/Operands.lean ====
section
/-! DEFINITION. Operand forms: sign extension (R16, R83) and the addressing modes (R134). `pc` is the incremented one
throughout, as the fetch leaves it (R24). -/

namespace Sys2Proof.Machine

/-- `sext_N(v)` (R16): an N-bit two's-complement number as a Word. -/
def sext {n : Nat} (v : BitVec n) : Word := v.signExtend 16

/-- `pc + sext_9(PCoffset9)`: the PC-relative address of LD, ST, LEA, and of the pointer cell of LDI and STI (R134); also
the target of BR (R121). -/
def State.pcRel9 (s : State) (off : BitVec 9) : Word := s.pc + sext off

/-- `pc + sext_11(PCoffset11)`: the target of JSR (R123). -/
def State.pcRel11 (s : State) (off : BitVec 11) : Word := s.pc + sext off

/-- `x[BaseR] + sext_6(offset6)`: the base-plus-offset address of LDR and STR (R134). -/
def State.baseOffset (s : State) (base : Reg) (off : BitVec 6) : Word := s.reg base + sext off

end Sys2Proof.Machine
end

