-- ==== Sys2Proof/Machine/Alu.lean ====
section
/-! DEFINITION. ADD, AND, NOT (40_alu.md): sources read, result computed, destination written, then `setcc` (R116). -/

namespace Sys2Proof.Machine

/-- ADD, register mode (R110). -/
def execAddReg (dr sr1 sr2 : Reg) (s : State) : Host.Outcome State Fault Refusal :=
  .next (s.setRegCc dr (s.reg sr1 + s.reg sr2))

/-- ADD, immediate mode (R111). -/
def execAddImm (dr sr1 : Reg) (imm : BitVec 5) (s : State) : Host.Outcome State Fault Refusal :=
  .next (s.setRegCc dr (s.reg sr1 + sext imm))

/-- AND, register mode (R112). -/
def execAndReg (dr sr1 sr2 : Reg) (s : State) : Host.Outcome State Fault Refusal :=
  .next (s.setRegCc dr (s.reg sr1 &&& s.reg sr2))

/-- AND, immediate mode (R113). -/
def execAndImm (dr sr1 : Reg) (imm : BitVec 5) (s : State) : Host.Outcome State Fault Refusal :=
  .next (s.setRegCc dr (s.reg sr1 &&& sext imm))

/-- NOT (R114). -/
def execNot (dr sr1 : Reg) (s : State) : Host.Outcome State Fault Refusal :=
  .next (s.setRegCc dr (~~~ s.reg sr1))

end Sys2Proof.Machine
end

