-- ==== Sys2Proof/Machine/Control.lean ====
section
/-! DEFINITION. BR, JMP, JSR, JSRR (41_control.md). None writes `cond` and none can fail (R120). -/

namespace Sys2Proof.Machine

/-- BR (R121): `nzp & cond` not zero branches, otherwise `pc` keeps the incremented value. -/
def execBr (n z p : Bool) (off : BitVec 9) (s : State) : Host.Outcome State Fault Refusal :=
  if s.brTaken (BitVec.ofBool n ++ BitVec.ofBool z ++ BitVec.ofBool p) then .next { s with pc := s.pcRel9 off }
  else .next s

/-- JMP, and RET when the base register is R7 (R122). -/
def execJmp (base : Reg) (s : State) : Host.Outcome State Fault Refusal := .next { s with pc := s.reg base }

/-- JSR (R123): the link, then the jump. -/
def execJsr (off : BitVec 11) (s : State) : Host.Outcome State Fault Refusal :=
  .next { s.link with pc := s.pcRel11 off }

/-- JSRR (R124): R7 is written first and the base register read after, so `JSRR R7` falls through. -/
def execJsrr (base : Reg) (s : State) : Host.Outcome State Fault Refusal :=
  .next { s.link with pc := s.link.reg base }

end Sys2Proof.Machine
end

