-- ==== Sys2Proof/Machine/Load.lean ====
section
/-! DEFINITION. LD, LDI, LDR, LEA (42_load.md). The one error a load can raise is HostIOFailure, and then neither `x[DR]`
nor `cond` is written (R135). -/

namespace Sys2Proof.Machine

/-- `x[DR] <- MemRead(a, 1); setcc(DR)`, the end of every load (R135). -/
def State.loadInto (s : State) (dr : Reg) (a : Word) : State :=
  match s.memRead a with
  | .failed s' => s'.raise .hostIOFailure
  | .ok v s' => s'.setRegCc dr v

/-- LD (R130). -/
def execLd (dr : Reg) (off : BitVec 9) (s : State) : Host.Outcome State Fault Refusal :=
  .next (s.loadInto dr (s.pcRel9 off))

/-- LDI (R131): one level of indirection; both reads are `MemRead`s. -/
def execLdi (dr : Reg) (off : BitVec 9) (s : State) : Host.Outcome State Fault Refusal :=
  match s.memRead (s.pcRel9 off) with
  | .failed s' => .next (s'.raise .hostIOFailure)
  | .ok p s' => .next (s'.loadInto dr p)

/-- LDR (R132). -/
def execLdr (dr base : Reg) (off : BitVec 6) (s : State) : Host.Outcome State Fault Refusal :=
  .next (s.loadInto dr (s.baseOffset base off))

/-- LEA (R133): no memory access; the flags are set from the address. -/
def execLea (dr : Reg) (off : BitVec 9) (s : State) : Host.Outcome State Fault Refusal :=
  .next (s.setRegCc dr (s.pcRel9 off))

end Sys2Proof.Machine
end

