-- ==== Sys2Proof/Machine/Store.lean ====
section
/-! DEFINITION. ST, STI, STR (43_store.md). A store writes no register and no flag; the one error it can raise is
HostIOFailure in STI, when its pointer cell is KBSR, and then nothing is written (R143). -/

namespace Sys2Proof.Machine

/-- ST (R140). -/
def execSt (sr : Reg) (off : BitVec 9) (s : State) : Host.Outcome State Fault Refusal :=
  .next (s.memWrite (s.pcRel9 off) (s.reg sr))

/-- STI (R141): the pointer is read, with a `MemRead`, before the write. -/
def execSti (sr : Reg) (off : BitVec 9) (s : State) : Host.Outcome State Fault Refusal :=
  match s.memRead (s.pcRel9 off) with
  | .failed s' => .next (s'.raise .hostIOFailure)
  | .ok p s' => .next (s'.memWrite p (s'.reg sr))

/-- STR (R142). -/
def execStr (sr base : Reg) (off : BitVec 6) (s : State) : Host.Outcome State Fault Refusal :=
  .next (s.memWrite (s.baseOffset base off) (s.reg sr))

end Sys2Proof.Machine
end

