-- ==== Sys2Proof/Machine/Trap.lean ====
section
/-! DEFINITION. TRAP and the trap gateway's services (44_trap.md). A service runs inside the step of its TRAP (R159); one
that must wait leaves a phase behind, from which `State.resume` goes on. No service writes `pc`, `cond`, `ir` or memory. -/

namespace Sys2Proof.Machine

/-- The step in progress completes: the next thing is a fetch. -/
def State.complete (s : State) : State := { s with phase := .between }

/-! ## GETC (R152) -/

/-- GETC from its `HostReadChar` on: the character goes to R0, zero-extended; `cond` is not updated. -/
def State.getcRead (s : State) : State :=
  match s.hostReadChar with
  | .failed s' => s'.raise .hostIOFailure
  | .ok none s' => s'.await .getcRead
  | .ok (some c) s' => (s'.setReg .r0 (zext8 c)).complete

/-! ## OUT (R153) -/

/-- OUT: the low byte of R0, then a flush. -/
def State.outService (s : State) : State :=
  match s.hostWriteChar (lowByte (s.reg .r0)) with
  | .failed s' => s'.raise .hostIOFailure
  | .ok _ s' =>
    match s'.hostFlush with
    | .failed s'' => s''.raise .hostIOFailure
    | .ok _ s'' => s''.complete

/-! ## PUTS and PUTSP (R154, R156) -/

/-- The characters PUTS writes for a Word: its low byte, whatever the high byte is (R154; log 15). -/
def putsChars (w : Word) : List Byte := [lowByte w]

/-- The characters PUTSP writes for a Word: the low byte always, then the high byte if it is not zero (R156). -/
def putspChars (w : Word) : List Byte := lowByte w :: (if highByte w = 0 then [] else [highByte w])

/-- The scan over at most `n` words from address `a`, which wraps: true when it has met the zero Word that ends it, false
when it has met none. Words are read with `MemPeek` (R53, R154). -/
def State.scan (chars : Word → List Byte) : Nat → Word → State → Res Bool
  | 0, _, s => .ok false s
  | n + 1, a, s =>
    if s.memPeek a = 0 then .ok true s
    else
      match s.hostWriteAll (chars (s.memPeek a)) with
      | .failed s' => .failed s'
      | .ok _ s' => State.scan chars n (a + 1) s'

/-- One lap of a scan: the 65536 words of memory, each once. -/
def lap : Nat := 65536

/-- A string service from the start of its scan at `x[0]`: a zero Word ends it with a flush. If a whole lap meets
none, no later lap will: the scan never ends, and each further step of the model is one more lap of it (R198,
U7; log 7). -/
def State.scanService (s : State) (chars : Word → List Byte) (p : Phase) : State :=
  match s.scan chars lap (s.reg .r0) with
  | .failed s' => s'.raise .hostIOFailure
  | .ok false s' => { s' with phase := p }
  | .ok true s' =>
    match s'.hostFlush with
    | .failed s'' => s''.raise .hostIOFailure
    | .ok _ s'' => s''.complete

/-- PUTS (R154). -/
def State.putsService (s : State) : State := s.scanService putsChars .putsScan

/-- PUTSP (R156). -/
def State.putspService (s : State) : State := s.scanService putspChars .putspScan

/-! ## IN (R155) -/

/-- IN from its `HostReadChar` on: the echo, a flush, then R0, which is written only if all succeed. -/
def State.inRead (s : State) : State :=
  match s.hostReadChar with
  | .failed s' => s'.raise .hostIOFailure
  | .ok none s' => s'.await .inRead
  | .ok (some c) s' =>
    match s'.hostWriteChar c with
    | .failed s'' => s''.raise .hostIOFailure
    | .ok _ s'' =>
      match s''.hostFlush with
      | .failed s3 => s3.raise .hostIOFailure
      | .ok _ s3 => (s3.setReg .r0 (zext8 c)).complete

/-- IN: the prompt, a flush, then the read. -/
def State.inService (s : State) : State :=
  match s.hostWriteAll s.cfg.inPrompt with
  | .failed s' => s'.raise .hostIOFailure
  | .ok _ s' =>
    match s'.hostFlush with
    | .failed s'' => s''.raise .hostIOFailure
    | .ok _ s'' => s''.inRead

/-! ## HALT (R157) -/

/-- HALT: the notice, a flush, then HALTED; `fault_cause` is not written. -/
def State.haltService (s : State) : State :=
  match s.hostWriteAll s.cfg.haltNotice with
  | .failed s' => s'.raise .hostIOFailure
  | .ok _ s' =>
    match s'.hostFlush with
    | .failed s'' => s''.raise .hostIOFailure
    | .ok _ s'' => { s''.complete with runState := .halted }

/-! ## The gateway (R150, R151, R158) -/

/-- `TrapDispatch(v)` (R151): one of the six services, or UndefinedTrapVector (R158). -/
def State.trapDispatch (s : State) (v : BitVec 8) : State :=
  match v.toNat with
  | 0x20 => s.getcRead
  | 0x21 => s.outService
  | 0x22 => s.putsService
  | 0x23 => s.inService
  | 0x24 => s.putspService
  | 0x25 => s.haltService
  | _ => s.raise .undefinedTrapVector

/-- A blocked or endlessly scanning step goes on from where it stands (R161, R198); between two steps there is none. -/
def State.resume (s : State) : State :=
  match s.phase with
  | .between => s
  | .getcRead => s.getcRead
  | .inRead => s.inRead
  | .putsScan => s.putsService
  | .putspScan => s.putspService

/-- TRAP (R150): the link for every vector, before dispatch. -/
def execTrap (v : BitVec 8) (s : State) : Host.Outcome State Fault Refusal := .next (s.link.trapDispatch v)

/-- TRAP x20, GETC (R150, R152). -/
def execGetc (s : State) : Host.Outcome State Fault Refusal := .next s.link.getcRead

/-- TRAP x21, OUT (R150, R153). -/
def execOut (s : State) : Host.Outcome State Fault Refusal := .next s.link.outService

/-- TRAP x22, PUTS (R150, R154). -/
def execPuts (s : State) : Host.Outcome State Fault Refusal := .next s.link.putsService

/-- TRAP x23, IN (R150, R155). -/
def execInChar (s : State) : Host.Outcome State Fault Refusal := .next s.link.inService

/-- TRAP x24, PUTSP (R150, R156). -/
def execPutsp (s : State) : Host.Outcome State Fault Refusal := .next s.link.putspService

/-- TRAP x25, HALT (R150, R157). -/
def execHalt (s : State) : Host.Outcome State Fault Refusal := .next s.link.haltService

end Sys2Proof.Machine
end

