-- ==== Sys2Proof/Machine/Undefined.lean ====
section
/-! DEFINITION. The two undefined opcodes (45_undefined.md): the handler does nothing but raise the fault (R172). -/

namespace Sys2Proof.Machine

/-- RTI, opcode 8 (R170). -/
def execRti (s : State) : Host.Outcome State Fault Refusal := .next (s.raise .undefinedOpcode)

/-- The reserved opcode 13 (R171). -/
def execRes (s : State) : Host.Outcome State Fault Refusal := .next (s.raise .undefinedOpcode)

end Sys2Proof.Machine
end

