-- ==== Sys2Proof/Machine/Cycle.lean ====
section
/-! DEFINITION. One step of a RUNNING machine (R180): between two steps the host has its turn and a pending stop request is
honoured before the next fetch (R188, R197); then fetch, decode, dispatch. A step that has not completed goes on. -/

namespace Sys2Proof.Machine

/-- Fetch, decode and dispatch (R180): a fetch read that fails raises HostIOFailure before `ir` and `pc` are written. -/
def fetchAndExec (s : State) : Host.Outcome State Fault Refusal :=
  match s.fetch with
  | .failed s' => .next s'.raiseAtFetch
  | .ok _ s' => exec (decodeWord s'.ir) s'

/-- The boundary between two steps, and the step after it. -/
def startStep (s : State) : Host.Outcome State Fault Refusal :=
  if s.takeTurn.stopRequested then .next s.takeTurn.stop else fetchAndExec s.takeTurn

/-- A step of a RUNNING machine. -/
def runningStep (s : State) : Host.Outcome State Fault Refusal :=
  match s.phase with
  | .between => startStep s
  | .getcRead => .next s.resume
  | .inRead => .next s.resume
  | .putsScan => .next s.resume
  | .putspScan => .next s.resume

end Sys2Proof.Machine
end

