-- ==== Sys2Proof/Machine/Step.lean ====
section
/-! DEFINITION. The step function (R180), and how the host places an instruction where it is fetched next. -/

namespace Sys2Proof.Machine

/-- One step. HALTED is absorbing: no step is taken and no state changes (R32, R180; log 8). -/
def step (s : State) : Host.Outcome State Fault Refusal :=
  match s.runState with
  | .halted => .next s
  | .running => runningStep s

/-- The state with the one-Word instruction whose bits are `w` where the next step fetches. -/
def State.withFetchWord (s : State) (nbits w : Nat) : State := s.placeInstr (BitVec.ofNat 16 (w % 2 ^ nbits))

end Sys2Proof.Machine
end

