-- ==== Sys2Proof/Safety.lean ====
section
/-! DEFINITION. The terms statements are made in: what each instruction may write, the premises on the host, how a run
ends, and the invariant of the machine. -/

namespace Sys2Proof

/-! ## What an instruction may write (the table under R23, R24, R27, R58) -/

/-- The columns "registers written" of the table under R23. -/
def Instr.writesReg (i : Instr) (r : Reg) : Bool :=
  match i with
  | .addReg dr _ _ => r = dr
  | .addImm dr _ _ => r = dr
  | .andReg dr _ _ => r = dr
  | .andImm dr _ _ => r = dr
  | .not dr _ => r = dr
  | .br _ _ _ _ => false
  | .jmp _ => false
  | .jsr _ => r = .r7
  | .jsrr _ => r = .r7
  | .ld dr _ => r = dr
  | .ldi dr _ => r = dr
  | .ldr dr _ _ => r = dr
  | .lea dr _ => r = dr
  | .st _ _ => false
  | .sti _ _ => false
  | .str _ _ _ => false
  | .rti => false
  | .res => false
  | .trap v => decide (r = .r7) || (decide (r = .r0) && (v == 0x20 || v == 0x23))
  | .getc => decide (r = .r7) || decide (r = .r0)
  | .inChar => decide (r = .r7) || decide (r = .r0)
  | .out => r = .r7
  | .puts => r = .r7
  | .putsp => r = .r7
  | .halt => r = .r7

/-- The destination register of the seven instructions that set the flags (R27); none for all others. -/
def Instr.flagReg : Instr → Option Reg
  | .addReg dr _ _ => some dr
  | .addImm dr _ _ => some dr
  | .andReg dr _ _ => some dr
  | .andImm dr _ _ => some dr
  | .not dr _ => some dr
  | .ld dr _ => some dr
  | .ldi dr _ => some dr
  | .ldr dr _ _ => some dr
  | .lea dr _ => some dr
  | .br _ _ _ _ => none
  | .jmp _ => none
  | .jsr _ => none
  | .jsrr _ => none
  | .st _ _ => none
  | .sti _ _ => none
  | .str _ _ _ => none
  | .rti => none
  | .res => none
  | .trap _ => none
  | .getc => none
  | .out => none
  | .puts => none
  | .inChar => none
  | .putsp => none
  | .halt => none

/-- The instructions that write `pc` other than by the fetch increment (R24). -/
def Instr.writesPc : Instr → Bool
  | .br _ _ _ _ => true
  | .jmp _ => true
  | .jsr _ => true
  | .jsrr _ => true
  | .addReg _ _ _ => false
  | .addImm _ _ _ => false
  | .andReg _ _ _ => false
  | .andImm _ _ _ => false
  | .not _ _ => false
  | .ld _ _ => false
  | .ldi _ _ => false
  | .ldr _ _ _ => false
  | .lea _ _ => false
  | .st _ _ => false
  | .sti _ _ => false
  | .str _ _ _ => false
  | .rti => false
  | .res => false
  | .trap _ => false
  | .getc => false
  | .out => false
  | .puts => false
  | .inChar => false
  | .putsp => false
  | .halt => false

/-- TRAP and the services: the instructions that call the trap gateway (R13). -/
def Instr.isTrap : Instr → Bool
  | .trap _ => true
  | .getc => true
  | .out => true
  | .puts => true
  | .inChar => true
  | .putsp => true
  | .halt => true
  | .br _ _ _ _ => false
  | .jmp _ => false
  | .jsr _ => false
  | .jsrr _ => false
  | .addReg _ _ _ => false
  | .addImm _ _ _ => false
  | .andReg _ _ _ => false
  | .andImm _ _ _ => false
  | .not _ _ => false
  | .ld _ _ => false
  | .ldi _ _ => false
  | .ldr _ _ _ => false
  | .lea _ _ => false
  | .st _ _ => false
  | .sti _ _ => false
  | .str _ _ _ => false
  | .rti => false
  | .res => false

namespace Machine

/-- The address an instruction stores to in a state (R58, R140 to R142); none for an instruction that stores nothing. STI
stores where the pointer it has read says, and nowhere if that read fails. -/
def storeAddr (i : Instr) (s : State) : Option Word :=
  match i with
  | .st _ off => some (s.pcRel9 off)
  | .str _ base off => some (s.baseOffset base off)
  | .sti _ off =>
    match s.memRead (s.pcRel9 off) with
    | .ok p _ => some p
    | .failed _ => none
  | .br _ _ _ _ => none
  | .jmp _ => none
  | .jsr _ => none
  | .jsrr _ => none
  | .addReg _ _ _ => none
  | .addImm _ _ _ => none
  | .andReg _ _ _ => none
  | .andImm _ _ _ => none
  | .not _ _ => none
  | .ld _ _ => none
  | .ldi _ _ => none
  | .ldr _ _ _ => none
  | .lea _ _ => none
  | .rti => none
  | .res => none
  | .trap _ => none
  | .getc => none
  | .out => none
  | .puts => none
  | .inChar => none
  | .putsp => none
  | .halt => none

/-- The instruction reads KBSR, with a `MemRead`, in this state, so it polls the keyboard (R58). -/
def polls (i : Instr) (s : State) : Bool :=
  match i with
  | .ld _ off => s.pcRel9 off == kbsrAddr
  | .ldr _ base off => s.baseOffset base off == kbsrAddr
  | .sti _ off => s.pcRel9 off == kbsrAddr
  | .ldi _ off =>
    s.pcRel9 off == kbsrAddr || s.mem.read (s.pcRel9 off) == kbsrAddr
  | .br _ _ _ _ => false
  | .jmp _ => false
  | .jsr _ => false
  | .jsrr _ => false
  | .addReg _ _ _ => false
  | .addImm _ _ _ => false
  | .andReg _ _ _ => false
  | .andImm _ _ _ => false
  | .not _ _ => false
  | .lea _ _ => false
  | .st _ _ => false
  | .str _ _ _ => false
  | .rti => false
  | .res => false
  | .trap _ => false
  | .getc => false
  | .out => false
  | .puts => false
  | .inChar => false
  | .putsp => false
  | .halt => false

/-! ## Premises on the host -/

/-- "I/O is assumed reliable within a single run" (R185): the host fails none of its coming operations. -/
def State.HostReliable (s : State) : Prop := ∀ t ∈ s.schedule, t.fails = false

/-- The host fails none of its next `n` operations. -/
def State.HostWorksFor (s : State) (n : Nat) : Prop := ∀ j < n, (State.takeTurn^[j] s).nextTurn.fails = false

/-- The host fails its operation number `k` from here on, counting from 0, and none before it (R185, R188). -/
def State.FailsFirstAt (s : State) (k : Nat) : Prop :=
  s.HostWorksFor k ∧ (State.takeTurn^[k] s).nextTurn.fails = true

/-! ## What statements compute with, written apart from the operations they speak about -/

/-- The number `a + off`, the offset read as a two's-complement number, modulo 2^16 (R16, R83, R134). -/
def displaced {n : Nat} (a : Word) (off : BitVec n) : Word := BitVec.ofInt 16 (a.toNat + off.toInt)

/-- What PUTS writes for the first `n` words from R0 on: the low byte of each (R154). -/
def State.putsText (s : State) (n : Nat) : List Byte :=
  (List.range n).map fun k => (s.mem.read (s.reg .r0 + BitVec.ofNat 16 k)).setWidth 8

/-- What PUTSP writes for the first `n` words from R0 on: the low byte of each, then its high byte if that is not zero
(R156). -/
def State.putspText (s : State) (n : Nat) : List Byte :=
  (List.range n).flatMap fun k =>
    (s.mem.read (s.reg .r0 + BitVec.ofNat 16 k)).extractLsb' 0 8 ::
      (if (s.mem.read (s.reg .r0 + BitVec.ofNat 16 k)).extractLsb' 8 8 = 0 then []
       else [(s.mem.read (s.reg .r0 + BitVec.ofNat 16 k)).extractLsb' 8 8])

/-- The state after a service that links R7, has had `n` host turns, has written `out` and has changed nothing else. -/
def State.afterOutput (s : State) (n : Nat) (out : List Byte) : State :=
  { State.takeTurn^[n] s with regs := s.regs.set .r7 s.pc, output := s.output ++ out }

/-- The state after an instruction whose result is `v`: the destination holds it, `cond` says whether it is zero,
negative or positive (R27), and nothing else is different. -/
def State.afterResult (s : State) (dr : Reg) (v : Word) : State :=
  { s with
    regs := s.regs.set dr v
    cond := if v.toNat = 0 then .zero else if 0x8000 ≤ v.toNat then .negative else .positive }

/-- The state after a fatal error raised by the instruction in the latch (R33, R186). -/
def State.afterFault (s : State) (c : FaultCause) : State :=
  { s with runState := .halted, faultCause := c, faultIr := s.ir, faultAddr := s.pc - 1, phase := .between }

/-- The two states agree on everything that is the core's: all but the host's streams, its stop request and its coming
turns. -/
structure SameCore (s t : State) : Prop where
  regs       : t.regs = s.regs
  pc         : t.pc = s.pc
  cond       : t.cond = s.cond
  ir         : t.ir = s.ir
  mem        : t.mem = s.mem
  runState   : t.runState = s.runState
  faultCause : t.faultCause = s.faultCause
  faultIr    : t.faultIr = s.faultIr
  faultAddr  : t.faultAddr = s.faultAddr
  phase      : t.phase = s.phase
  cfg        : t.cfg = s.cfg
  draws      : t.draws = s.draws

/-! ## How a run ends (R190, R198) -/

/-- The run ended well: HALTED, no fault, and the stop was the HALT service, which is the instruction in the latch. A stop
request leaves another one there: HALT never completes a step RUNNING. -/
def State.EndedWell (s : State) : Prop :=
  s.runState = .halted ∧ s.faultCause = .none ∧ decodeWord s.ir = .halt

/-! ## The invariant -/

/-- What every step keeps. -/
structure State.Inv (s : State) : Prop where
  /-- Memory is in canonical form. -/
  memory : s.mem.wf
  /-- A fault is recorded in HALTED only (R186, R190). -/
  faulted : s.faultCause ≠ .none → s.runState = .halted
  /-- The record of an undefined opcode is the latched word, which is one, and its address (R33, R182, R183). -/
  opcodeRecord : s.faultCause = .undefinedOpcode →
    s.faultIr = s.ir ∧ s.faultAddr = s.pc - 1 ∧ (decodeWord s.ir = .rti ∨ decodeWord s.ir = .res)
  /-- The record of an undefined vector is the latched TRAP word and its address, and R7 is linked (R158, R182, R184). -/
  vectorRecord : s.faultCause = .undefinedTrapVector →
    s.faultIr = s.ir ∧ s.faultAddr = s.pc - 1 ∧ s.reg .r7 = s.pc ∧ (fieldOpcode s.ir = 15 ∧
      definedVector (fieldVector s.ir) = false)
  /-- A step that waits is one of a RUNNING machine, with R7 linked (R150, R161). -/
  waiting : s.phase ≠ .between → s.runState = .running ∧ s.reg .r7 = s.pc
  /-- It is the step of the instruction in the latch. -/
  getcLatched : s.phase = .getcRead → decodeWord s.ir = .getc
  inLatched : s.phase = .inRead → decodeWord s.ir = .inChar
  putsLatched : s.phase = .putsScan → decodeWord s.ir = .puts
  putspLatched : s.phase = .putspScan → decodeWord s.ir = .putsp
  /-- A scan never ends only over a memory without a zero Word (R198, U7). -/
  endless : s.phase = .putsScan ∨ s.phase = .putspScan → ∀ a, s.mem.read a ≠ 0

end Machine

end Sys2Proof
end

