-- ==== Sys2Proof/Certificates/Slice0/Obligations.lean ====
section
/-! DEFINITION. The statements for the provers, one `def Obligations.<Name> : Prop` each; OBLIGATIONS.json lists them. -/

open Sys2Proof Sys2Proof.Machine

/-! ## Encoding -/

/-- Every well-formed instruction is what the decoder reads back from its encoding, whatever bytes follow, with every
operand at every value (R82, R88). The don't-care bits the encoder emits are log 13's. -/
def Obligations.DecodeEncodeRoundTrip : Prop :=
  ∀ (i : Instr) (rest : List Byte), i.wellFormed = true → decode (encode i ++ rest) = .ok (i, rest)

/-- Every word decodes to a well-formed instruction whose encoding agrees with the word on every bit that a field or a
fixed pattern covers: decoding drops the don't-care bits of R88 and no other. -/
def Obligations.DecodingKeepsEveryFieldBit : Prop :=
  ∀ w : Word, (decodeWord w).wellFormed = true ∧
    encodeWord (decodeWord w) &&& (decodeWord w).careMask = w &&& (decodeWord w).careMask

/-- R89: every word decodes to exactly one row of the opcode table. It has the row's fixed bits; and any row whose fixed
bits it has is that row, or is the row TRAP of which that row is a refinement. -/
def Obligations.DecodedRowIsTheOneThatMatches : Prop :=
  ∀ w : Word, w &&& (decodeWord w).row.mask = (decodeWord w).row.pattern ∧
    ∀ i : Instr, w &&& i.row.mask = i.row.pattern →
      i.row = (decodeWord w).row ∨ (i.row = ⟨0xF000, 0xF000⟩ ∧ (decodeWord w).row.mask = 0xF0FF)

/-- R88: two words that agree on the bits some field or fixed pattern covers decode to the same instruction. -/
def Obligations.DontCareBitsAreIgnored : Prop :=
  ∀ w w' : Word, w &&& (decodeWord w).careMask = w' &&& (decodeWord w).careMask → decodeWord w' = decodeWord w

/-- Words written out from the spec decode as 95_test_vectors.md 2.10 lists them. -/
def Obligations.WordsOfTheSpecDecode : Prop :=
  decodeWord 0x0000 = .br false false false 0 ∧ decodeWord 0x0BFE = .br true false true 0x1FE ∧
  decodeWord 0x1025 = .addImm .r0 .r0 5 ∧ decodeWord 0x1007 = .addReg .r0 .r0 .r7 ∧
  decodeWord 0x2207 = .ld .r1 7 ∧ decodeWord 0x3006 = .st .r0 6 ∧ decodeWord 0x4803 = .jsr 3 ∧
  decodeWord 0x47C0 = .jsrr .r7 ∧ decodeWord 0x5260 = .andImm .r1 .r1 0 ∧ decodeWord 0x6640 = .ldr .r3 .r1 0 ∧
  decodeWord 0x7201 = .str .r1 .r0 1 ∧ decodeWord 0x8000 = .rti ∧ decodeWord 0x927F = .not .r1 .r1 ∧
  decodeWord 0xA207 = .ldi .r1 7 ∧ decodeWord 0xB206 = .sti .r1 6 ∧ decodeWord 0xC1C0 = .jmp .r7 ∧
  decodeWord 0xD000 = .res ∧ decodeWord 0xE00A = .lea .r0 10 ∧ decodeWord 0xF025 = .halt ∧
  decodeWord 0xF0FF = .trap 0xFF ∧ decodeWord 0xFFFF = .trap 0xFF

/-! ## Values, reset, memory -/

/-- R16: sign extension keeps the number an N-bit field stands for, and zero extension keeps the byte's. -/
def Obligations.ExtensionKeepsTheNumber : Prop :=
  (∀ (n : Nat) (v : BitVec n), n ∈ [5, 6, 9, 11] → (sext v).toInt = v.toInt) ∧
    ∀ c : Byte, (zext8 c).toNat = c.toNat

/-- R38: the state after reset, for any image. What the rule leaves unspecified (`ir`, the fault record's two words, the
input stream) is not said here. -/
def Obligations.ResetLeavesTheSpecsValues : Prop :=
  ∀ image : Memory, (∀ r, (State.boot image).reg r = 0x0000) ∧ (State.boot image).pc = 0x3000 ∧
    (State.boot image).cond = .zero ∧ (State.boot image).cond.bits = 0b010 ∧
    (∀ a, (State.boot image).mem.read a = image.read a) ∧ (State.boot image).runState = .running ∧
    (State.boot image).faultCause = .none ∧ (State.boot image).faultCause.code = 0 ∧ (State.boot image).output = []

/-- `State.reset` is the state after reset with the empty image (the model's choice: log 2): every word of memory is zero,
as the vector T-RST-1 has it. -/
def Obligations.StateResetHasTheEmptyImage : Prop :=
  State.reset = State.boot ⟨[]⟩ ∧ ∀ a, State.reset.mem.read a = 0x0000

/-- R213: an image's words stand contiguously from its origin, and every other word is as it was. -/
def Obligations.ImageWordsStandFromTheirOrigin : Prop :=
  ∀ (m : Memory) (origin : Word) (ws : List Word), origin.toNat + ws.length ≤ 65536 →
    (∀ (k : Nat) (h : k < ws.length), (m.loadWords origin ws).read (origin + BitVec.ofNat 16 k) = ws[k]) ∧
    ∀ a : Word, (a.toNat < origin.toNat ∨ origin.toNat + ws.length ≤ a.toNat) →
      (m.loadWords origin ws).read a = m.read a

/-- R52: a store sets one word, all 16 bits of it, at every address, and changes nothing else. -/
def Obligations.StoreSetsOneWord : Prop :=
  ∀ (s : State) (a v : Word), (s.memWrite a v).mem.read a = v ∧
    (∀ b, b ≠ a → (s.memWrite a v).mem.read b = s.mem.read b) ∧
    s.memWrite a v = { s with mem := (s.memWrite a v).mem }

/-- Memories in canonical form that read the same are equal: equal memories are equal data (log 1). -/
def Obligations.CanonicalMemoriesThatReadTheSameAreEqual : Prop :=
  ∀ m m' : Memory, m.wf → m'.wf → (∀ a, m.read a = m'.read a) → m = m'

/-- R50: a read of any address but 0xFE00 gives the word and has no side effect and does not fail; a read of 0xFE00 first
polls the keyboard and then gives the word. -/
def Obligations.MemReadPollsOnlyAtKbsr : Prop :=
  ∀ s : State,
    (∀ a : Word, a ≠ 0xFE00 → s.memRead a = .ok (s.mem.read a) s) ∧
    (∀ t, s.keyboardPoll = .ok () t → s.memRead 0xFE00 = .ok (t.mem.read 0xFE00) t) ∧
    (∀ t, s.keyboardPoll = .failed t → s.memRead 0xFE00 = .failed t)

/-- R51, a character pending (the host's turns are the model's: log 4, log 5): it leaves the queue and stands in
KBDR, zero-extended; KBSR has bit 15 set and is 0x8000 if its other bits were zero (what they are otherwise is left free:
log 9); nothing else of the core is different. -/
def Obligations.ReadyPollMovesTheCharacter : Prop :=
  ∀ (s : State) (c : Byte) (rest : List Byte),
    s.nextTurn.fails = false → s.takeTurn.nextTurn.fails = false → s.takeTurn.input = c :: rest →
    ∃ t, s.memRead 0xFE00 = .ok (t.mem.read 0xFE00) t ∧
      (t.mem.read 0xFE00).getLsbD 15 = true ∧
      ((s.mem.read 0xFE00).extractLsb' 0 15 = 0 → t.mem.read 0xFE00 = 0x8000) ∧
      t.mem.read 0xFE02 = BitVec.ofNat 16 c.toNat ∧
      (∀ a : Word, a ≠ 0xFE00 → a ≠ 0xFE02 → t.mem.read a = s.mem.read a) ∧
      t = { s.takeTurn.takeTurn with
        mem := t.mem, input := s.takeTurn.takeTurn.input.tail, draws := t.draws } ∧
      s.takeTurn.takeTurn.input.head? = some c

/-- R51, no character pending (the host's turn is the model's: log 5): KBSR is cleared to zero, the read gives
zero, KBDR and everything else are left alone. -/
def Obligations.UnreadyPollClearsKbsr : Prop :=
  ∀ s : State, s.nextTurn.fails = false → s.takeTurn.input = [] →
    ∃ t, s.memRead 0xFE00 = .ok 0x0000 t ∧ t = { s.takeTurn with mem := t.mem } ∧ t.mem.read 0xFE00 = 0x0000 ∧
      ∀ a : Word, a ≠ 0xFE00 → t.mem.read a = s.mem.read a

/-- R65: a read fails only at 0xFE00 and only when a host operation of the poll fails; it fails then, with no word of
memory changed. -/
def Obligations.MemReadFailsOnlyThroughTheHost : Prop :=
  ∀ s : State,
    (∀ (a : Word) (t : State), s.memRead a = .failed t → a = 0xFE00 ∧ SameCore s t ∧
      (s.nextTurn.fails = true ∨ s.takeTurn.nextTurn.fails = true)) ∧
    (s.nextTurn.fails = true → s.memRead 0xFE00 = .failed s.takeTurn) ∧
    (s.nextTurn.fails = false → s.takeTurn.input ≠ [] → s.takeTurn.nextTurn.fails = true →
      s.memRead 0xFE00 = .failed s.takeTurn.takeTurn)

/-! ## The step -/

/-- R180: in a RUNNING machine between two steps, with no stop request to honour, a step is the execution of the
instruction that the word at `pc` decodes to, with `ir` latched and `pc` incremented; the host has had its turn. At 0xFE00
the fetch polls the keyboard first. -/
def Obligations.StepRunsTheDecodedInstruction : Prop :=
  ∀ s : State, s.runState = .running → s.phase = .between → s.takeTurn.stopRequested = false →
    (∀ (i : Instr) (rest : List Byte), s.pc ≠ 0xFE00 → decode (wordBytes (s.mem.read s.pc) ++ rest) = .ok (i, rest) →
      step s = exec i { s.takeTurn with ir := s.mem.read s.pc, pc := s.pc + 1 }) ∧
    (∀ (w : Word) (t : State), s.takeTurn.memRead s.pc = .ok w t →
      step s = exec (decodeWord w) { t with ir := w, pc := s.pc + 1 })

/-- R180, 90_conflicts.md C9: a fetch read that fails leaves `ir` and `pc` as they are, and the fault is recorded with the
address in `pc`; what `fault_ir` holds is left free (log 10). -/
def Obligations.FailedFetchWritesNeitherIrNorPc : Prop :=
  ∀ s t : State, s.runState = .running → s.phase = .between → s.takeTurn.stopRequested = false →
    s.takeTurn.memRead s.pc = .failed t →
    ∃ u, step s = .next u ∧ u.ir = s.ir ∧ u.pc = s.pc ∧ u.runState = .halted ∧ u.faultCause = .hostIOFailure ∧
      u.faultAddr = s.pc ∧ u.regs = s.regs ∧ u.cond = s.cond ∧ u.mem = s.mem ∧ u.output = s.output

/-- R32, R190 (a step in HALTED leaves the state as it is: log 8): HALTED is absorbing and nothing changes in it; a RUNNING
machine enters it only by the HALT service, the one normal end, by a fatal error, or by a stop request. -/
def Obligations.HaltedIsAbsorbingAndEnteredOnlyAsTheSpecSays : Prop :=
  (∀ s : State, s.runState = .halted → step s = .next s) ∧
  ∀ s t : State, s.runState = .running → step s = .next t → t.runState = .halted →
    t.EndedWell ∨ t.faultCause ≠ .none ∨ t.stopRequested = true

/-- R197: a stop request is honoured before the next fetch, and while a read is blocked; HALTED, and nothing else of the
core is different: a blocked read has not written R0. -/
def Obligations.StopRequestHalts : Prop :=
  ∀ s : State, s.runState = .running → s.takeTurn.stopRequested = true →
    (s.phase = .between → step s = .next { s.takeTurn with runState := .halted }) ∧
    (s.phase = .getcRead ∨ s.phase = .inRead → s.nextTurn.fails = false → s.takeTurn.input = [] →
      s.takeTurn.inputEnded = false → step s = .next { s.takeTurn with runState := .halted, phase := .between })

/-- R161, R185, R205 (a blocked step takes one model step per turn of the host: log 6): while a read is blocked, and no
character has come, the stream has not ended, and neither a failure nor a stop request has come, nothing changes but that
the host has had a turn. If the read fails, or no character is queued and the stream has ended, HostIOFailure is raised and
R0 is not written. -/
def Obligations.BlockedReadWaits : Prop :=
  ∀ s : State, s.runState = .running → s.phase = .getcRead ∨ s.phase = .inRead →
    (s.nextTurn.fails = false → s.takeTurn.input = [] → s.takeTurn.inputEnded = false →
      s.takeTurn.stopRequested = false → step s = .next s.takeTurn) ∧
    (s.nextTurn.fails = true ∨ (s.takeTurn.input = [] ∧ s.takeTurn.inputEnded = true) →
      step s = .next (s.takeTurn.afterFault .hostIOFailure))

/-- R161, R205, R152, R155, R162 (the host's turns are the model's: log 5): the arrival of a character wakes a blocked read.
GETC then puts it in R0; IN first echoes it and flushes. The step is complete. If the echo fails, or the flush after it,
HostIOFailure is raised: the character is taken, what was written stands, and R0 is not written. -/
def Obligations.ArrivalWakesABlockedRead : Prop :=
  ∀ (s : State) (c : Byte) (rest : List Byte), s.runState = .running → s.takeTurn.input = c :: rest →
    (s.phase = .getcRead → s.nextTurn.fails = false → step s = .next { s.takeTurn with
      regs := s.regs.set .r0 (BitVec.ofNat 16 c.toNat), input := rest, phase := .between }) ∧
    (s.phase = .inRead → s.HostReliable → step s = .next { State.takeTurn^[2] { s.takeTurn with input := rest } with
      regs := s.regs.set .r0 (BitVec.ofNat 16 c.toNat), output := s.output ++ [c], phase := .between }) ∧
    (s.phase = .inRead → s.FailsFirstAt 1 →
      step s = .next (State.afterFault (State.takeTurn { s.takeTurn with input := rest }) .hostIOFailure)) ∧
    (s.phase = .inRead → s.FailsFirstAt 2 →
      step s = .next (State.afterFault { State.takeTurn^[2] { s.takeTurn with input := rest } with
        output := s.output ++ [c] } .hostIOFailure))

/-- R198 (each model step is one more lap: log 7): a scan over a memory without a zero word is a hang: the machine stays
RUNNING in it, writing on, and neither halts nor goes on to another instruction, as long as no write fails. The first write
that fails in a lap raises HostIOFailure; what was written before it stands (R162). -/
def Obligations.EndlessScanGoesOnForEver : Prop :=
  ∀ s : State, s.Inv → s.phase = .putsScan ∨ s.phase = .putspScan →
    (s.HostReliable → ∃ t, step s = .next t ∧ SameCore s t ∧ t.runState = .running ∧
      s.output.length + 65536 ≤ t.output.length ∧ s.output <+: t.output) ∧
    (∀ k, s.phase = .putsScan → k < 65536 → s.FailsFirstAt k →
      step s = .next (State.afterFault { State.takeTurn^[k + 1] s with
        output := s.output ++ (s.putsText 65536).take k } .hostIOFailure)) ∧
    (∀ k, s.phase = .putspScan → k < (s.putspText 65536).length → s.FailsFirstAt k →
      step s = .next (State.afterFault { State.takeTurn^[k + 1] s with
        output := s.output ++ (s.putspText 65536).take k } .hostIOFailure))

/-- R65, R182, R198: every step answers a next state; neither a fault nor a refusal of the model ever ends a run. -/
def Obligations.EveryStepAnswersANextState : Prop := ∀ s : State, ∃ t, step s = .next t

/-- Every step keeps the invariant: memory in canonical form, a fault recorded only in HALTED and as R33 says, a waiting
step only RUNNING, linked and of the latched instruction, an endless scan only over a memory without a zero word. -/
def Obligations.StepKeepsTheInvariant : Prop := ∀ s t : State, s.Inv → step s = .next t → t.Inv

/-- The state after reset meets the invariant, with any image in canonical form. -/
def Obligations.ResetMeetsTheInvariant : Prop :=
  State.reset.Inv ∧ ∀ image : Memory, image.wf → (State.boot image).Inv

/-! ## Rules about all instructions -/

/-- The table under R23: an instruction changes no general register but those it lists. -/
def Obligations.OnlyListedRegistersChange : Prop :=
  ∀ (i : Instr) (s t : State) (r : Reg), exec i s = .next t → i.writesReg r = false → t.reg r = s.reg r

/-- R26, R27: `cond` is one-hot; ADD, AND, NOT, LD, LDI, LDR and LEA set it from the new value of their destination (a load
that raises HostIOFailure does not: R135); no other instruction writes it. -/
def Obligations.FlagsFollowTheDestination : Prop :=
  (∀ c : Cond, c.bits = 0b001 ∨ c.bits = 0b010 ∨ c.bits = 0b100) ∧
  (∀ (i : Instr) (dr : Reg) (s t : State), i.flagReg = some dr → exec i s = .next t → s.runState = .running →
    (t.runState = .running ∧ t.cond.bits = (if t.reg dr = 0 then 0b010 else if (t.reg dr).getLsbD 15 then 0b100 else 0b001))
    ∨ (t.faultCause = .hostIOFailure ∧ t.cond = s.cond ∧ t.reg dr = s.reg dr)) ∧
  (∀ (i : Instr) (s t : State), i.flagReg = none → exec i s = .next t → t.cond = s.cond)

/-- R24, R28: no instruction but BR, JMP, JSR and JSRR writes `pc`, and no instruction writes `ir`: the word being executed
stays latched, whatever the instruction stores. -/
def Obligations.PcAndLatchAreLeftAlone : Prop :=
  ∀ (i : Instr) (s t : State), exec i s = .next t → t.ir = s.ir ∧ (i.writesPc = false → t.pc = s.pc)

/-- R52, R57, R58: an instruction changes no word of memory but the one it stores to, and KBSR and KBDR if it reads KBSR. -/
def Obligations.OnlyTheStoredWordChanges : Prop :=
  ∀ (i : Instr) (s t : State) (a : Word), exec i s = .next t → storeAddr i s ≠ some a →
    (polls i s = true → a ≠ 0xFE00 ∧ a ≠ 0xFE02) → t.mem.read a = s.mem.read a

/-- R13, R196: an instruction that neither calls the trap gateway nor reads KBSR touches neither of the host's streams, and
what it does to the core does not depend on anything of the host's. -/
def Obligations.HostMattersOnlyToTrapsAndPolls : Prop :=
  ∀ (i : Instr) (s s' : State), i.isTrap = false → polls i s = false → SameCore s s' →
    ∃ t t', exec i s = .next t ∧ exec i s' = .next t' ∧ SameCore t t' ∧
      t.input = s.input ∧ t.output = s.output ∧ t.schedule = s.schedule ∧ t.inputEnded = s.inputEnded ∧
      t.stopRequested = s.stopRequested

/-- R33, R186, R187: an instruction either leaves the fault record alone, or it writes all of it, with its own word and
address, and the machine is HALTED. -/
def Obligations.FaultRecordIsWrittenWholeAndHalts : Prop :=
  ∀ (i : Instr) (s t : State), exec i s = .next t →
    (t.faultCause = s.faultCause ∧ t.faultIr = s.faultIr ∧ t.faultAddr = s.faultAddr) ∨
    (t.runState = .halted ∧ t.faultCause ≠ .none ∧ t.faultIr = s.ir ∧ t.faultAddr = s.pc - 1)

/-- R159: no service writes `pc`, `cond`, `ir` or memory; none writes R1 to R6; R7 holds the link; only GETC and IN write
R0; what is in the output stream stays there. -/
def Obligations.ServicesTouchOnlyWhatTheirRulesName : Prop :=
  ∀ (i : Instr) (s t : State), i.isTrap = true → i.wellFormed = true → exec i s = .next t →
    t.pc = s.pc ∧ t.cond = s.cond ∧ t.ir = s.ir ∧ t.mem = s.mem ∧ t.reg .r7 = s.pc ∧
    (∀ r, r ≠ .r7 → r ≠ .r0 → t.reg r = s.reg r) ∧
    (i ≠ .getc → i ≠ .inChar → t.reg .r0 = s.reg .r0) ∧ s.output <+: t.output

/-- R162, R185: `used` are the host turns of the operations the service performed (log 5). If the host failed one of them,
the machine is HALTED with cause HostIOFailure. It is so only then, or when a read found the input ended (D23); R7 is
written, R0 is not, and the characters already written stand. -/
def Obligations.FailedServiceKeepsWhatItHasDone : Prop :=
  ∀ (i : Instr) (s t : State), i.isTrap = true → s.faultCause = .none → exec i s = .next t →
    ∃ used : List HostTurn, s.schedule = used ++ t.schedule ∧
      ((∃ turn ∈ used, turn.fails = true) → t.faultCause = .hostIOFailure) ∧
      (t.faultCause = .hostIOFailure →
        ((∃ turn ∈ used, turn.fails = true) ∨ (t.input = [] ∧ t.inputEnded = true)) ∧
        t.runState = .halted ∧ t.regs = s.regs.set .r7 s.pc ∧ s.output <+: t.output ∧ t.faultIr = s.ir ∧
        t.faultAddr = s.pc - 1 ∧ t.phase = .between)

/-- R60: a store is seen by the next fetch of that address. -/
def Obligations.StoredWordIsWhatIsFetched : Prop :=
  ∀ (s : State) (a v : Word), a ≠ 0xFE00 →
    State.fetch { s.memWrite a v with pc := a } = .ok () { s.memWrite a v with ir := v, pc := a + 1 }

/-! ## ADD, AND, NOT -/

/-- R110. -/
def Obligations.AddRegisterSetsTheSum : Prop :=
  ∀ (dr sr1 sr2 : Reg) (s : State),
    (∀ dc, decodeWord (formatRRR 0x1 dr sr1 dc sr2) = .addReg dr sr1 sr2) ∧
    exec (.addReg dr sr1 sr2) s =
      .next (s.afterResult dr (BitVec.ofNat 16 ((s.reg sr1).toNat + (s.reg sr2).toNat)))

/-- R111. -/
def Obligations.AddImmediateSetsTheSum : Prop :=
  ∀ (dr sr1 : Reg) (imm : BitVec 5) (s : State),
    decodeWord (formatRRI 0x1 dr sr1 imm) = .addImm dr sr1 imm ∧
    exec (.addImm dr sr1 imm) s = .next (s.afterResult dr (displaced (s.reg sr1) imm))

/-- R112. -/
def Obligations.AndRegisterSetsTheConjunction : Prop :=
  ∀ (dr sr1 sr2 : Reg) (s : State),
    (∀ dc, decodeWord (formatRRR 0x5 dr sr1 dc sr2) = .andReg dr sr1 sr2) ∧
    exec (.andReg dr sr1 sr2) s = .next (s.afterResult dr (s.reg sr1 &&& s.reg sr2))

/-- R113: the immediate is sign-extended before the AND. -/
def Obligations.AndImmediateSetsTheConjunction : Prop :=
  ∀ (dr sr1 : Reg) (imm : BitVec 5) (s : State),
    decodeWord (formatRRI 0x5 dr sr1 imm) = .andImm dr sr1 imm ∧
    exec (.andImm dr sr1 imm) s = .next (s.afterResult dr (s.reg sr1 &&& BitVec.ofInt 16 imm.toInt))

/-- R114. -/
def Obligations.NotSetsTheComplement : Prop :=
  ∀ (dr sr1 : Reg) (s : State),
    (∀ dc, decodeWord (formatRR dr sr1 dc) = .not dr sr1) ∧
    exec (.not dr sr1) s = .next (s.afterResult dr (0xFFFF - s.reg sr1))

/-! ## BR, JMP, JSR, JSRR -/

/-- R121. -/
def Obligations.BranchIsTakenWhenTheMaskNamesTheFlag : Prop :=
  ∀ (n z p : Bool) (off : BitVec 9) (s : State),
    decodeWord (formatBR n z p off) = .br n z p off ∧
    exec (.br n z p off) s = .next { s with
      pc := if (n = true ∧ s.cond = .negative) ∨ (z = true ∧ s.cond = .zero) ∨ (p = true ∧ s.cond = .positive)
        then displaced s.pc off else s.pc }

/-- R122. -/
def Obligations.JumpGoesWhereTheBaseRegisterSays : Prop :=
  ∀ (base : Reg) (s : State),
    (∀ dc dc', decodeWord (formatB dc base dc') = .jmp base) ∧
    exec (.jmp base) s = .next { s with pc := s.reg base }

/-- R123. -/
def Obligations.JsrLinksAndJumps : Prop :=
  ∀ (off : BitVec 11) (s : State),
    decodeWord (formatJ11 off) = .jsr off ∧
    exec (.jsr off) s = .next { s with regs := s.regs.set .r7 s.pc, pc := displaced s.pc off }

/-- R124: the base register is read after R7 is written, so `JSRR R7` falls through. -/
def Obligations.JsrrLinksBeforeItReadsTheBase : Prop :=
  ∀ (base : Reg) (s : State),
    (∀ dc dc', decodeWord (formatJB dc base dc') = .jsrr base) ∧
    exec (.jsrr base) s = .next { s with
      regs := s.regs.set .r7 s.pc, pc := if base = .r7 then s.pc else s.reg base }

/-! ## LD, LDI, LDR, LEA -/

/-- R130, R135. -/
def Obligations.LdLoadsPcRelative : Prop :=
  ∀ (dr : Reg) (off : BitVec 9) (s : State),
    decodeWord (formatRP9 0x2 dr off) = .ld dr off ∧
    (displaced s.pc off ≠ 0xFE00 →
      exec (.ld dr off) s = .next (s.afterResult dr (s.mem.read (displaced s.pc off)))) ∧
    (∀ v t, s.memRead (displaced s.pc off) = .ok v t → exec (.ld dr off) s = .next (t.afterResult dr v)) ∧
    (∀ t, s.memRead (displaced s.pc off) = .failed t → exec (.ld dr off) s = .next (t.afterFault .hostIOFailure))

/-- R131, R135, R185: one level of indirection; both reads are `MemRead`s. If a read fails, HostIOFailure is
raised and neither `x[DR]` nor `cond` is written. When the first read has polled and the second fails, what the first did to KBSR, KBDR and the
queue stands: that is read from R185 by inference (log 28). -/
def Obligations.LdiLoadsThroughOnePointer : Prop :=
  ∀ (dr : Reg) (off : BitVec 9) (s : State),
    decodeWord (formatRP9 0xA dr off) = .ldi dr off ∧
    (displaced s.pc off ≠ 0xFE00 → s.mem.read (displaced s.pc off) ≠ 0xFE00 →
      exec (.ldi dr off) s = .next (s.afterResult dr (s.mem.read (s.mem.read (displaced s.pc off))))) ∧
    (∀ p t, s.memRead (displaced s.pc off) = .ok p t →
      (∀ v u, t.memRead p = .ok v u → exec (.ldi dr off) s = .next (u.afterResult dr v)) ∧
      (∀ u, t.memRead p = .failed u → exec (.ldi dr off) s = .next (u.afterFault .hostIOFailure))) ∧
    (∀ t, s.memRead (displaced s.pc off) = .failed t → exec (.ldi dr off) s = .next (t.afterFault .hostIOFailure))

/-- R132, R135. -/
def Obligations.LdrLoadsBasePlusOffset : Prop :=
  ∀ (dr base : Reg) (off : BitVec 6) (s : State),
    decodeWord (formatRB6 0x6 dr base off) = .ldr dr base off ∧
    (displaced (s.reg base) off ≠ 0xFE00 →
      exec (.ldr dr base off) s = .next (s.afterResult dr (s.mem.read (displaced (s.reg base) off)))) ∧
    (∀ v t, s.memRead (displaced (s.reg base) off) = .ok v t →
      exec (.ldr dr base off) s = .next (t.afterResult dr v)) ∧
    (∀ t, s.memRead (displaced (s.reg base) off) = .failed t →
      exec (.ldr dr base off) s = .next (t.afterFault .hostIOFailure))

/-- R133: no memory access, not even of 0xFE00; the flags are set. -/
def Obligations.LeaGivesTheAddressAndSetsTheFlags : Prop :=
  ∀ (dr : Reg) (off : BitVec 9) (s : State),
    decodeWord (formatRP9 0xE dr off) = .lea dr off ∧
    exec (.lea dr off) s = .next (s.afterResult dr (displaced s.pc off))

/-! ## ST, STI, STR -/

/-- R140. -/
def Obligations.StStoresPcRelative : Prop :=
  ∀ (sr : Reg) (off : BitVec 9) (s : State),
    decodeWord (formatRP9 0x3 sr off) = .st sr off ∧
    ∃ t, exec (.st sr off) s = .next t ∧ t = { s with mem := t.mem } ∧
      t.mem.read (displaced s.pc off) = s.reg sr ∧
      ∀ a, a ≠ displaced s.pc off → t.mem.read a = s.mem.read a

/-- R141, R143. -/
def Obligations.StiStoresThroughOnePointer : Prop :=
  ∀ (sr : Reg) (off : BitVec 9) (s : State),
    decodeWord (formatRP9 0xB sr off) = .sti sr off ∧
    (displaced s.pc off ≠ 0xFE00 → ∃ t, exec (.sti sr off) s = .next t ∧ t = { s with mem := t.mem } ∧
      t.mem.read (s.mem.read (displaced s.pc off)) = s.reg sr ∧
      ∀ a, a ≠ s.mem.read (displaced s.pc off) → t.mem.read a = s.mem.read a) ∧
    (∀ p t, s.memRead (displaced s.pc off) = .ok p t →
      ∃ u, exec (.sti sr off) s = .next u ∧ u = { t with mem := u.mem } ∧ u.mem.read p = s.reg sr ∧
        ∀ a, a ≠ p → u.mem.read a = t.mem.read a) ∧
    (∀ t, s.memRead (displaced s.pc off) = .failed t → exec (.sti sr off) s = .next (t.afterFault .hostIOFailure))

/-- R142. -/
def Obligations.StrStoresBasePlusOffset : Prop :=
  ∀ (sr base : Reg) (off : BitVec 6) (s : State),
    decodeWord (formatRB6 0x7 sr base off) = .str sr base off ∧
    ∃ t, exec (.str sr base off) s = .next t ∧ t = { s with mem := t.mem } ∧
      t.mem.read (displaced (s.reg base) off) = s.reg sr ∧
      ∀ a, a ≠ displaced (s.reg base) off → t.mem.read a = s.mem.read a

/-! ## TRAP and its services

The states after a host operation name the host's turns (`takeTurn`), which are the model's way to write down the host's
choices: log 4 and log 5. -/

/-- R150, R151: the vector alone selects, whatever `ir[11:8]` holds; the six numbers are those of the services; TRAP with a
service's vector is that service. -/
def Obligations.TrapDispatchesOnItsVector : Prop :=
  (∀ (dc : BitVec 4) (v : BitVec 8), decodeWord (formatT dc v) = decodeTrap v) ∧
  decodeTrap 0x20 = .getc ∧ decodeTrap 0x21 = .out ∧ decodeTrap 0x22 = .puts ∧ decodeTrap 0x23 = .inChar ∧
  decodeTrap 0x24 = .putsp ∧ decodeTrap 0x25 = .halt ∧
  (∀ v : BitVec 8, v.toNat < 0x20 ∨ 0x25 < v.toNat → decodeTrap v = .trap v) ∧
  ∀ (v : BitVec 8) (s : State), exec (.trap v) s = exec (decodeTrap v) s

/-- R158: an undefined vector is fatal, after R7 has been written (90_conflicts.md C5). -/
def Obligations.UndefinedVectorIsFatal : Prop :=
  ∀ (v : BitVec 8) (s : State), v.toNat < 0x20 ∨ 0x25 < v.toNat →
    exec (.trap v) s = .next (State.afterFault { s with regs := s.regs.set .r7 s.pc } .undefinedTrapVector) ∧
    FaultCause.undefinedTrapVector.code = 2

/-- R152, R161, R162, R197: GETC with a character queued at its read; with none; with the stream ended; with a host failure;
with a stop request while it is blocked. A blocked step stands in a phase of its own (log 6). -/
def Obligations.GetcReadsOneCharacter : Prop :=
  ∀ s : State,
    (∀ (c : Byte) (rest : List Byte), s.nextTurn.fails = false → s.takeTurn.input = c :: rest →
      exec .getc s = .next { s.takeTurn with
        regs := (s.regs.set .r7 s.pc).set .r0 (BitVec.ofNat 16 c.toNat), input := rest, phase := .between }) ∧
    (s.nextTurn.fails = false → s.takeTurn.input = [] → s.takeTurn.inputEnded = false →
      s.takeTurn.stopRequested = false →
      exec .getc s = .next { s.takeTurn with regs := s.regs.set .r7 s.pc, phase := .getcRead }) ∧
    (s.nextTurn.fails = false → s.takeTurn.input = [] → s.takeTurn.inputEnded = false →
      s.takeTurn.stopRequested = true →
      exec .getc s = .next { s.takeTurn with
        regs := s.regs.set .r7 s.pc, runState := .halted, phase := .between }) ∧
    (s.nextTurn.fails = true ∨ (s.takeTurn.input = [] ∧ s.takeTurn.inputEnded = true) →
      exec .getc s = .next (State.afterFault { s.takeTurn with regs := s.regs.set .r7 s.pc } .hostIOFailure))

/-- R153, R162, R185: OUT; and with its write or its flush failing. -/
def Obligations.OutWritesTheLowByte : Prop :=
  ∀ s : State,
    (s.nextTurn.fails = false → s.takeTurn.nextTurn.fails = false →
      exec .out s = .next { s.afterOutput 2 [(s.reg .r0).setWidth 8] with phase := .between }) ∧
    (s.nextTurn.fails = true → exec .out s = .next ((s.afterOutput 1 []).afterFault .hostIOFailure)) ∧
    (s.nextTurn.fails = false → s.takeTurn.nextTurn.fails = true →
      exec .out s = .next ((s.afterOutput 2 [(s.reg .r0).setWidth 8]).afterFault .hostIOFailure))

/-- R154, R162, R185: PUTS writes the low byte of each word up to the first zero word, which may be any of the 65536 from R0
on, then flushes. If a write fails, or the flush, HostIOFailure is raised and what was written before it stands. -/
def Obligations.PutsWritesUpToTheZeroWord : Prop :=
  ∀ (s : State) (n : Nat), (∀ k < n, s.mem.read (s.reg .r0 + BitVec.ofNat 16 k) ≠ 0) →
    (n < 65536 → s.mem.read (s.reg .r0 + BitVec.ofNat 16 n) = 0 →
      (s.HostReliable → exec .puts s = .next { s.afterOutput (n + 1) (s.putsText n) with phase := .between }) ∧
      (s.FailsFirstAt n → exec .puts s = .next ((s.afterOutput (n + 1) (s.putsText n)).afterFault .hostIOFailure))) ∧
    (∀ k, n ≤ 65536 → k < n → s.FailsFirstAt k →
      exec .puts s = .next ((s.afterOutput (k + 1) ((s.putsText n).take k)).afterFault .hostIOFailure))

/-- R156, R162, R185: PUTSP writes the low byte of each word, then its high byte if that is not zero, up to the first zero
word, then flushes. If a write fails, or the flush, HostIOFailure is raised and what was written before it stands. -/
def Obligations.PutspWritesTwoCharactersPerWord : Prop :=
  ∀ (s : State) (n : Nat), (∀ k < n, s.mem.read (s.reg .r0 + BitVec.ofNat 16 k) ≠ 0) →
    (n < 65536 → s.mem.read (s.reg .r0 + BitVec.ofNat 16 n) = 0 →
      (s.HostReliable → exec .putsp s =
        .next { s.afterOutput ((s.putspText n).length + 1) (s.putspText n) with phase := .between }) ∧
      (s.FailsFirstAt (s.putspText n).length → exec .putsp s =
        .next ((s.afterOutput ((s.putspText n).length + 1) (s.putspText n)).afterFault .hostIOFailure))) ∧
    (∀ k, n ≤ 65536 → k < (s.putspText n).length → s.FailsFirstAt k →
      exec .putsp s = .next ((s.afterOutput (k + 1) ((s.putspText n).take k)).afterFault .hostIOFailure))

/-- R154, R156, R198, U7 (the phase is the model's: log 7): over a memory without a zero word the scan
does not end in its step. -/
def Obligations.ScanWithoutAZeroWordHangs : Prop :=
  ∀ s : State, s.HostReliable → (∀ a, s.mem.read a ≠ 0) →
    (∃ t, exec .puts s = .next t ∧ SameCore { s with regs := s.regs.set .r7 s.pc, phase := .putsScan } t) ∧
    (∃ t, exec .putsp s = .next t ∧ SameCore { s with regs := s.regs.set .r7 s.pc, phase := .putspScan } t)

/-- R155, R161, R162, R185, R197: IN writes the prompt, flushes, reads, echoes, flushes and writes R0. With no character
queued at its read, the prompt written: it blocks; the machine is HALTED if a stop request is pending; HostIOFailure if the
input has ended. A failure of any of its host operations (the prompt, the flush, the read; the echo; the last flush) raises
HostIOFailure with what was written before it standing; R0 is written only if all succeed. -/
def Obligations.InPromptsReadsAndEchoes : Prop :=
  ∀ s : State,
    (∀ (c : Byte) (rest : List Byte), (State.takeTurn^[s.cfg.inPrompt.length + 2] s).input = c :: rest →
      (s.HostReliable →
        exec .inChar s = .next { State.takeTurn^[2] { State.takeTurn^[s.cfg.inPrompt.length + 2] s with input := rest } with
          regs := (s.regs.set .r7 s.pc).set .r0 (BitVec.ofNat 16 c.toNat)
          output := s.output ++ s.cfg.inPrompt ++ [c]
          phase := .between }) ∧
      (s.FailsFirstAt (s.cfg.inPrompt.length + 2) →
        exec .inChar s = .next (State.afterFault
          { State.takeTurn { State.takeTurn^[s.cfg.inPrompt.length + 2] s with input := rest } with
            regs := s.regs.set .r7 s.pc, output := s.output ++ s.cfg.inPrompt } .hostIOFailure)) ∧
      (s.FailsFirstAt (s.cfg.inPrompt.length + 3) →
        exec .inChar s = .next (State.afterFault
          { State.takeTurn^[2] { State.takeTurn^[s.cfg.inPrompt.length + 2] s with input := rest } with
            regs := s.regs.set .r7 s.pc, output := s.output ++ s.cfg.inPrompt ++ [c] } .hostIOFailure))) ∧
    (s.HostReliable → (State.takeTurn^[s.cfg.inPrompt.length + 2] s).input = [] →
      ((State.takeTurn^[s.cfg.inPrompt.length + 2] s).inputEnded = false →
        (State.takeTurn^[s.cfg.inPrompt.length + 2] s).stopRequested = false →
        exec .inChar s =
          .next { s.afterOutput (s.cfg.inPrompt.length + 2) s.cfg.inPrompt with phase := .inRead }) ∧
      ((State.takeTurn^[s.cfg.inPrompt.length + 2] s).inputEnded = false →
        (State.takeTurn^[s.cfg.inPrompt.length + 2] s).stopRequested = true →
        exec .inChar s =
          .next { s.afterOutput (s.cfg.inPrompt.length + 2) s.cfg.inPrompt with
            runState := .halted, phase := .between }) ∧
      ((State.takeTurn^[s.cfg.inPrompt.length + 2] s).inputEnded = true →
        exec .inChar s =
          .next ((s.afterOutput (s.cfg.inPrompt.length + 2) s.cfg.inPrompt).afterFault .hostIOFailure))) ∧
    (∀ k ≤ s.cfg.inPrompt.length + 1, s.FailsFirstAt k →
      exec .inChar s = .next ((s.afterOutput (k + 1) (s.cfg.inPrompt.take k)).afterFault .hostIOFailure))

/-- R157, R162, R185: HALT writes the notice, flushes and halts, with no fault; if a write fails, or the flush,
HostIOFailure is raised and what was written before it stands. -/
def Obligations.HaltAnnouncesAndHalts : Prop :=
  ∀ s : State,
    (s.HostReliable →
      exec .halt s = .next { s.afterOutput (s.cfg.haltNotice.length + 1) s.cfg.haltNotice with
        runState := .halted, phase := .between }) ∧
    (∀ k ≤ s.cfg.haltNotice.length, s.FailsFirstAt k →
      exec .halt s = .next ((s.afterOutput (k + 1) (s.cfg.haltNotice.take k)).afterFault .hostIOFailure))

/-! ## The undefined opcodes -/

/-- R170, R171, R172, R183: RTI and the reserved opcode do nothing but raise UndefinedOpcode, whatever their other bits. -/
def Obligations.UndefinedOpcodesAreFatal : Prop :=
  ∀ s : State, (∀ dc, decodeWord (formatX 0x8 dc) = .rti) ∧ (∀ dc, decodeWord (formatX 0xD dc) = .res) ∧
    exec .rti s = .next (s.afterFault .undefinedOpcode) ∧ exec .res s = .next (s.afterFault .undefinedOpcode) ∧
    FaultCause.undefinedOpcode.code = 1
end

