-- ==== Sys2Proof/Laws/Decode.lean ====
section
/-! SUPPORT. Register indices, and the fields of a word in each format of R82: every field stands where R81 puts it. -/

namespace Sys2Proof

@[simp] theorem Reg.ofBits_bits (r : Reg) : Reg.ofBits r.bits = r := by cases r <;> rfl

@[simp] theorem Reg.bits_ofBits (b : BitVec 3) : (Reg.ofBits b).bits = b := by
  revert b
  decide

/-! ## Slices of a word put together from parts -/

theorem parts_4_3_3_1_2_3 (op : BitVec 4) (d a : BitVec 3) (x : BitVec 1) (y : BitVec 2) (b : BitVec 3) :
    (op ++ d ++ a ++ x ++ y ++ b).extractLsb' 12 4 = op ∧ (op ++ d ++ a ++ x ++ y ++ b).extractLsb' 9 3 = d ∧
    (op ++ d ++ a ++ x ++ y ++ b).extractLsb' 6 3 = a ∧
    (op ++ d ++ a ++ x ++ y ++ b).getLsbD 5 = x.getLsbD 0 ∧ (op ++ d ++ a ++ x ++ y ++ b).extractLsb' 0 3 = b := by
  refine ⟨?_, ?_, ?_, ?_, ?_⟩ <;>
    simp (disch := omega) only [BitVec.extractLsb'_append_eq_of_le, BitVec.extractLsb'_append_eq_of_add_le,
      BitVec.getLsbD_append] <;> simp

theorem parts_4_3_3_1_5 (op : BitVec 4) (d a : BitVec 3) (x : BitVec 1) (i : BitVec 5) :
    (op ++ d ++ a ++ x ++ i).extractLsb' 12 4 = op ∧ (op ++ d ++ a ++ x ++ i).extractLsb' 9 3 = d ∧
    (op ++ d ++ a ++ x ++ i).extractLsb' 6 3 = a ∧ (op ++ d ++ a ++ x ++ i).getLsbD 5 = x.getLsbD 0 ∧
    (op ++ d ++ a ++ x ++ i).extractLsb' 0 5 = i := by
  refine ⟨?_, ?_, ?_, ?_, ?_⟩ <;>
    simp (disch := omega) only [BitVec.extractLsb'_append_eq_of_le, BitVec.extractLsb'_append_eq_of_add_le,
      BitVec.getLsbD_append] <;> simp

theorem parts_4_3_3_6 (op : BitVec 4) (d a : BitVec 3) (i : BitVec 6) :
    (op ++ d ++ a ++ i).extractLsb' 12 4 = op ∧ (op ++ d ++ a ++ i).extractLsb' 9 3 = d ∧
    (op ++ d ++ a ++ i).extractLsb' 6 3 = a ∧ (op ++ d ++ a ++ i).extractLsb' 0 6 = i := by
  refine ⟨?_, ?_, ?_, ?_⟩ <;>
    simp (disch := omega) only [BitVec.extractLsb'_append_eq_of_le, BitVec.extractLsb'_append_eq_of_add_le] <;> simp

theorem parts_4_1_1_1_9 (op : BitVec 4) (n z p : BitVec 1) (i : BitVec 9) :
    (op ++ n ++ z ++ p ++ i).extractLsb' 12 4 = op ∧ (op ++ n ++ z ++ p ++ i).getLsbD 11 = n.getLsbD 0 ∧
    (op ++ n ++ z ++ p ++ i).getLsbD 10 = z.getLsbD 0 ∧ (op ++ n ++ z ++ p ++ i).getLsbD 9 = p.getLsbD 0 ∧
    (op ++ n ++ z ++ p ++ i).extractLsb' 0 9 = i := by
  refine ⟨?_, ?_, ?_, ?_, ?_⟩ <;>
    simp (disch := omega) only [BitVec.extractLsb'_append_eq_of_le, BitVec.extractLsb'_append_eq_of_add_le,
      BitVec.getLsbD_append] <;> simp

theorem parts_4_1_11 (op : BitVec 4) (x : BitVec 1) (i : BitVec 11) :
    (op ++ x ++ i).extractLsb' 12 4 = op ∧ (op ++ x ++ i).getLsbD 11 = x.getLsbD 0 ∧
    (op ++ x ++ i).extractLsb' 0 11 = i := by
  refine ⟨?_, ?_, ?_⟩ <;>
    simp (disch := omega) only [BitVec.extractLsb'_append_eq_of_le, BitVec.extractLsb'_append_eq_of_add_le,
      BitVec.getLsbD_append] <;> simp

theorem parts_4_1_2_3_6 (op : BitVec 4) (x : BitVec 1) (y : BitVec 2) (a : BitVec 3) (z : BitVec 6) :
    (op ++ x ++ y ++ a ++ z).extractLsb' 12 4 = op ∧ (op ++ x ++ y ++ a ++ z).getLsbD 11 = x.getLsbD 0 ∧
    (op ++ x ++ y ++ a ++ z).extractLsb' 6 3 = a := by
  refine ⟨?_, ?_, ?_⟩ <;>
    simp (disch := omega) only [BitVec.extractLsb'_append_eq_of_le, BitVec.extractLsb'_append_eq_of_add_le,
      BitVec.getLsbD_append] <;> simp

theorem parts_4_3_9 (op : BitVec 4) (d : BitVec 3) (i : BitVec 9) :
    (op ++ d ++ i).extractLsb' 12 4 = op ∧ (op ++ d ++ i).extractLsb' 9 3 = d ∧ (op ++ d ++ i).extractLsb' 0 9 = i := by
  refine ⟨?_, ?_, ?_⟩ <;>
    simp (disch := omega) only [BitVec.extractLsb'_append_eq_of_le, BitVec.extractLsb'_append_eq_of_add_le] <;> simp

theorem parts_4_4_8 (op x : BitVec 4) (v : BitVec 8) :
    (op ++ x ++ v).extractLsb' 12 4 = op ∧ (op ++ x ++ v).extractLsb' 0 8 = v := by
  refine ⟨?_, ?_⟩ <;>
    simp (disch := omega) only [BitVec.extractLsb'_append_eq_of_le, BitVec.extractLsb'_append_eq_of_add_le] <;> simp

theorem parts_4_12 (op : BitVec 4) (x : BitVec 12) : (op ++ x).extractLsb' 12 4 = op := by
  simp (disch := omega) only [BitVec.extractLsb'_append_eq_of_le]
  simp

theorem getLsbD_ofBool_zero (b : Bool) : (BitVec.ofBool b).getLsbD 0 = b := by cases b <;> rfl

/-! ## The fields of the formats -/

theorem formatRRR_fields (op : BitVec 4) (d a : Reg) (y : BitVec 2) (b : Reg) :
    fieldOpcode (formatRRR op d a y b) = op ∧ fieldDr (formatRRR op d a y b) = d ∧
    fieldSr1 (formatRRR op d a y b) = a ∧ (formatRRR op d a y b).getLsbD 5 = false ∧
    fieldSr2 (formatRRR op d a y b) = b := by
  obtain ⟨h1, h2, h3, h4, h5⟩ := parts_4_3_3_1_2_3 op d.bits a.bits 0 y b.bits
  exact ⟨h1, (congrArg Reg.ofBits h2).trans d.ofBits_bits, (congrArg Reg.ofBits h3).trans a.ofBits_bits, h4,
    (congrArg Reg.ofBits h5).trans b.ofBits_bits⟩

theorem formatRRI_fields (op : BitVec 4) (d a : Reg) (i : BitVec 5) :
    fieldOpcode (formatRRI op d a i) = op ∧ fieldDr (formatRRI op d a i) = d ∧ fieldSr1 (formatRRI op d a i) = a ∧
    (formatRRI op d a i).getLsbD 5 = true ∧ fieldImm5 (formatRRI op d a i) = i := by
  obtain ⟨h1, h2, h3, h4, h5⟩ := parts_4_3_3_1_5 op d.bits a.bits 1 i
  exact ⟨h1, (congrArg Reg.ofBits h2).trans d.ofBits_bits, (congrArg Reg.ofBits h3).trans a.ofBits_bits, h4, h5⟩

theorem formatRR_fields (d a : Reg) (y : BitVec 6) :
    fieldOpcode (formatRR d a y) = 9 ∧ fieldDr (formatRR d a y) = d ∧ fieldSr1 (formatRR d a y) = a := by
  obtain ⟨h1, h2, h3, -⟩ := parts_4_3_3_6 9 d.bits a.bits y
  exact ⟨h1, (congrArg Reg.ofBits h2).trans d.ofBits_bits, (congrArg Reg.ofBits h3).trans a.ofBits_bits⟩

theorem formatBR_fields (n z p : Bool) (i : BitVec 9) :
    fieldOpcode (formatBR n z p i) = 0 ∧ (formatBR n z p i).getLsbD 11 = n ∧ (formatBR n z p i).getLsbD 10 = z ∧
    (formatBR n z p i).getLsbD 9 = p ∧ fieldPcOffset9 (formatBR n z p i) = i := by
  obtain ⟨h1, h2, h3, h4, h5⟩ := parts_4_1_1_1_9 0 (BitVec.ofBool n) (BitVec.ofBool z) (BitVec.ofBool p) i
  exact ⟨h1, h2.trans (getLsbD_ofBool_zero n), h3.trans (getLsbD_ofBool_zero z), h4.trans (getLsbD_ofBool_zero p), h5⟩

theorem formatB_fields (y : BitVec 3) (a : Reg) (y' : BitVec 6) :
    fieldOpcode (formatB y a y') = 12 ∧ fieldSr1 (formatB y a y') = a := by
  obtain ⟨h1, -, h3, -⟩ := parts_4_3_3_6 12 y a.bits y'
  exact ⟨h1, (congrArg Reg.ofBits h3).trans a.ofBits_bits⟩

theorem formatJ11_fields (i : BitVec 11) :
    fieldOpcode (formatJ11 i) = 4 ∧ (formatJ11 i).getLsbD 11 = true ∧ fieldPcOffset11 (formatJ11 i) = i :=
  parts_4_1_11 4 1 i

theorem formatJB_fields (y : BitVec 2) (a : Reg) (y' : BitVec 6) :
    fieldOpcode (formatJB y a y') = 4 ∧ (formatJB y a y').getLsbD 11 = false ∧ fieldSr1 (formatJB y a y') = a := by
  obtain ⟨h1, h2, h3⟩ := parts_4_1_2_3_6 4 0 y a.bits y'
  exact ⟨h1, h2, (congrArg Reg.ofBits h3).trans a.ofBits_bits⟩

theorem formatRP9_fields (op : BitVec 4) (d : Reg) (i : BitVec 9) :
    fieldOpcode (formatRP9 op d i) = op ∧ fieldDr (formatRP9 op d i) = d ∧ fieldPcOffset9 (formatRP9 op d i) = i := by
  obtain ⟨h1, h2, h3⟩ := parts_4_3_9 op d.bits i
  exact ⟨h1, (congrArg Reg.ofBits h2).trans d.ofBits_bits, h3⟩

theorem formatRB6_fields (op : BitVec 4) (d a : Reg) (i : BitVec 6) :
    fieldOpcode (formatRB6 op d a i) = op ∧ fieldDr (formatRB6 op d a i) = d ∧ fieldSr1 (formatRB6 op d a i) = a ∧
    fieldOffset6 (formatRB6 op d a i) = i := by
  obtain ⟨h1, h2, h3, h4⟩ := parts_4_3_3_6 op d.bits a.bits i
  exact ⟨h1, (congrArg Reg.ofBits h2).trans d.ofBits_bits, (congrArg Reg.ofBits h3).trans a.ofBits_bits, h4⟩

theorem formatT_fields (y : BitVec 4) (v : BitVec 8) :
    fieldOpcode (formatT y v) = 15 ∧ fieldVector (formatT y v) = v := parts_4_4_8 15 y v

theorem formatX_fields (op : BitVec 4) (y : BitVec 12) : fieldOpcode (formatX op y) = op := parts_4_12 op y

/-! ## A word put together again from its fields -/

theorem join_slices (w : Word) (s l₁ l₂ : Nat) : w.extractLsb' (s + l₁) l₂ ++ w.extractLsb' s l₁ = w.extractLsb' s (l₂ + l₁) :=
  BitVec.extractLsb'_append_extractLsb'_eq_extractLsb' rfl

theorem slice_one (w : Word) (i : Nat) : w.extractLsb' i 1 = BitVec.ofBool (w.getLsbD i) := by
  apply BitVec.eq_of_getLsbD_eq
  intro j hj
  obtain rfl : j = 0 := by omega
  simp

/-- Register mode of ADD and AND. -/
theorem formatRRR_of_fields {w : Word} (h : w.getLsbD 5 = false) :
    formatRRR (fieldOpcode w) (fieldDr w) (fieldSr1 w) (w.extractLsb' 3 2) (fieldSr2 w) = w := by
  have h5 : w.extractLsb' 5 1 = 0 := (slice_one w 5).trans (congrArg BitVec.ofBool h)
  simp only [formatRRR, fieldDr, fieldSr1, fieldSr2, Reg.bits_ofBits, fieldOpcode, ← h5]
  rw [join_slices w 9 3 4, join_slices w 6 3 7, join_slices w 5 1 10, join_slices w 3 2 11, join_slices w 0 3 13]
  exact BitVec.extractLsb'_eq_self

/-- Immediate mode of ADD and AND. -/
theorem formatRRI_of_fields {w : Word} (h : w.getLsbD 5 = true) :
    formatRRI (fieldOpcode w) (fieldDr w) (fieldSr1 w) (fieldImm5 w) = w := by
  have h5 : w.extractLsb' 5 1 = 1 := (slice_one w 5).trans (congrArg BitVec.ofBool h)
  simp only [formatRRI, fieldDr, fieldSr1, fieldImm5, Reg.bits_ofBits, fieldOpcode, ← h5]
  rw [join_slices w 9 3 4, join_slices w 6 3 7, join_slices w 5 1 10, join_slices w 0 5 11]
  exact BitVec.extractLsb'_eq_self

theorem formatRR_of_fields {w : Word} (h : fieldOpcode w = 9) :
    formatRR (fieldDr w) (fieldSr1 w) (w.extractLsb' 0 6) = w := by
  simp only [formatRR, fieldDr, fieldSr1, Reg.bits_ofBits, ← h, fieldOpcode]
  rw [join_slices w 9 3 4, join_slices w 6 3 7, join_slices w 0 6 10]
  exact BitVec.extractLsb'_eq_self

theorem formatBR_of_fields {w : Word} (h : fieldOpcode w = 0) :
    formatBR (w.getLsbD 11) (w.getLsbD 10) (w.getLsbD 9) (fieldPcOffset9 w) = w := by
  simp only [formatBR, fieldPcOffset9, ← slice_one, ← h, fieldOpcode]
  rw [join_slices w 11 1 4, join_slices w 10 1 5, join_slices w 9 1 6, join_slices w 0 9 7]
  exact BitVec.extractLsb'_eq_self

theorem formatB_of_fields {w : Word} (h : fieldOpcode w = 12) :
    formatB (w.extractLsb' 9 3) (fieldSr1 w) (w.extractLsb' 0 6) = w := by
  simp only [formatB, fieldSr1, Reg.bits_ofBits, ← h, fieldOpcode]
  rw [join_slices w 9 3 4, join_slices w 6 3 7, join_slices w 0 6 10]
  exact BitVec.extractLsb'_eq_self

theorem formatJ11_of_fields {w : Word} (h : fieldOpcode w = 4) (h11 : w.getLsbD 11 = true) :
    formatJ11 (fieldPcOffset11 w) = w := by
  have h1 : w.extractLsb' 11 1 = 1 := (slice_one w 11).trans (congrArg BitVec.ofBool h11)
  simp only [formatJ11, fieldPcOffset11, ← h1, ← h, fieldOpcode]
  rw [join_slices w 11 1 4, join_slices w 0 11 5]
  exact BitVec.extractLsb'_eq_self

theorem formatJB_of_fields {w : Word} (h : fieldOpcode w = 4) (h11 : w.getLsbD 11 = false) :
    formatJB (w.extractLsb' 9 2) (fieldSr1 w) (w.extractLsb' 0 6) = w := by
  have h1 : w.extractLsb' 11 1 = 0 := (slice_one w 11).trans (congrArg BitVec.ofBool h11)
  simp only [formatJB, fieldSr1, Reg.bits_ofBits, ← h1, ← h, fieldOpcode]
  rw [join_slices w 11 1 4, join_slices w 9 2 5, join_slices w 6 3 7, join_slices w 0 6 10]
  exact BitVec.extractLsb'_eq_self

theorem formatRP9_of_fields (w : Word) : formatRP9 (fieldOpcode w) (fieldDr w) (fieldPcOffset9 w) = w := by
  simp only [formatRP9, fieldDr, fieldPcOffset9, Reg.bits_ofBits, fieldOpcode]
  rw [join_slices w 9 3 4, join_slices w 0 9 7]
  exact BitVec.extractLsb'_eq_self

theorem formatRB6_of_fields (w : Word) : formatRB6 (fieldOpcode w) (fieldDr w) (fieldSr1 w) (fieldOffset6 w) = w := by
  simp only [formatRB6, fieldDr, fieldSr1, fieldOffset6, Reg.bits_ofBits, fieldOpcode]
  rw [join_slices w 9 3 4, join_slices w 6 3 7, join_slices w 0 6 10]
  exact BitVec.extractLsb'_eq_self

theorem formatT_of_fields {w : Word} (h : fieldOpcode w = 15) : formatT (w.extractLsb' 8 4) (fieldVector w) = w := by
  simp only [formatT, fieldVector, ← h, fieldOpcode]
  rw [join_slices w 8 4 4, join_slices w 0 8 8]
  exact BitVec.extractLsb'_eq_self

theorem formatX_of_fields (w : Word) : formatX (fieldOpcode w) (w.extractLsb' 0 12) = w := by
  simp only [formatX, fieldOpcode]
  rw [join_slices w 0 12 4]
  exact BitVec.extractLsb'_eq_self

/-! ## What a decoded word is -/

/-- A TRAP word decodes to a TRAP row that is well formed: a service's own, or TRAP with an undefined vector (R89). -/
theorem decodeTrap_cases (v : BitVec 8) :
    (definedVector v = true ∧ (decodeTrap v = .getc ∨ decodeTrap v = .out ∨ decodeTrap v = .puts ∨
      decodeTrap v = .inChar ∨ decodeTrap v = .putsp ∨ decodeTrap v = .halt)) ∨
    (definedVector v = false ∧ decodeTrap v = .trap v) := by
  unfold decodeTrap definedVector
  split <;> simp_all
  omega

/-- Opcode 15 is TRAP, and nothing else decodes to TRAP or to a service (R84, R89). -/
theorem decodeWord_cases (w : Word) :
    (fieldOpcode w = 15 ∧ decodeWord w = decodeTrap (fieldVector w)) ∨
    (fieldOpcode w ≠ 15 ∧ (decodeWord w).isTrap = false ∧ (decodeWord w).wellFormed = true) := by
  have hlt := (fieldOpcode w).isLt
  by_cases h15 : (fieldOpcode w).toNat = 15
  · exact .inl ⟨BitVec.eq_of_toNat_eq h15, by simp [decodeWord, h15]⟩
  · refine .inr ⟨fun e => h15 (by simp [e]), ?_⟩
    unfold decodeWord
    generalize (fieldOpcode w).toNat = n at hlt h15
    generalize w.getLsbD 5 = immediate
    generalize w.getLsbD 11 = long
    interval_cases n <;> first
      | exact absurd rfl h15
      | (cases immediate <;> cases long <;> exact ⟨rfl, rfl⟩)

/-- Every decoded word is a well-formed instruction. -/
theorem decodeWord_wellFormed (w : Word) : (decodeWord w).wellFormed = true := by
  rcases decodeWord_cases w with ⟨-, hd⟩ | ⟨-, -, h⟩
  · rcases decodeTrap_cases (fieldVector w) with ⟨-, hs⟩ | ⟨hv, ht⟩
    · rcases hs with hs | hs | hs | hs | hs | hs <;> rw [hd, hs] <;> rfl
    · rw [hd, ht]
      simp [Instr.wellFormed, hv]
  · exact h

/-- A word that decodes to TRAP has opcode 15 and an undefined vector, which is the operand. -/
theorem decodeWord_trap {w : Word} {v : BitVec 8} (h : decodeWord w = .trap v) :
    fieldOpcode w = 15 ∧ v = fieldVector w ∧ definedVector v = false := by
  rcases decodeWord_cases w with ⟨ho, hd⟩ | ⟨-, ht, -⟩
  · rcases decodeTrap_cases (fieldVector w) with ⟨-, hs⟩ | ⟨hv, ht⟩
    · rw [← hd, h] at hs
      simp at hs
    · rw [hd, ht] at h
      cases h
      exact ⟨ho, rfl, hv⟩
  · rw [h] at ht
    cases ht

end Sys2Proof
end

