-- ==== Sys2Proof/Laws/Memory.lean ====
section
/-! SUPPORT. Memory: a read gives the word last written, a write leaves every other word alone, and every operation keeps
the canonical form (R29, R50, R52). -/

namespace Sys2Proof.Machine

/-! ## Cells -/

theorem cellGet_erase (l : List Host.Cell) (a k : Nat) :
    cellGet (cellErase l a) k = if k = a then 0 else cellGet l k := by
  induction l with
  | nil => simp [cellErase, cellGet]
  | cons c rest ih =>
    obtain ⟨j, b⟩ := c
    by_cases hj : j = a
    · subst hj
      rw [cellErase, if_pos rfl, ih]
      by_cases hk : k = j
      · simp [hk]
      · simp [hk, cellGet, Ne.symm hk]
    · by_cases hjk : j = k
      · subst hjk
        simp [cellErase, hj, cellGet]
      · simp [cellErase, hj, cellGet, hjk, ih]

theorem cellGet_insert (l : List Host.Cell) (a : Nat) (b : Byte) (k : Nat) (h : cellErase l a = l) :
    cellGet (cellInsert l a b) k = if k = a then b else cellGet l k := by
  induction l with
  | nil =>
    by_cases hk : k = a
    · simp [cellInsert, cellGet, hk]
    · simp [cellInsert, cellGet, hk, Ne.symm hk]
  | cons c rest ih =>
    obtain ⟨j, d⟩ := c
    have hj : j ≠ a := by
      intro hj
      have := congrArg List.length h
      have hl : ∀ l : List Host.Cell, (cellErase l a).length ≤ l.length := by
        intro l
        induction l with
        | nil => simp [cellErase]
        | cons c rest ih => obtain ⟨j, b⟩ := c; simp only [cellErase]; split <;> simp <;> omega
      have := hl rest
      simp [cellErase, hj] at *
      omega
    have hr : cellErase rest a = rest := by simpa [cellErase, hj] using h
    by_cases ha : a < j
    · by_cases hk : k = a
      · simp [cellInsert, ha, cellGet, hk]
      · simp [cellInsert, ha, cellGet, hk, Ne.symm hk]
    · by_cases hjk : j = k
      · subst hjk
        simp [cellInsert, ha, cellGet, hj]
      · simp [cellInsert, ha, cellGet, hjk, ih hr]

theorem cellErase_erase (l : List Host.Cell) (a : Nat) : cellErase (cellErase l a) a = cellErase l a := by
  induction l with
  | nil => rfl
  | cons c rest ih =>
    obtain ⟨j, b⟩ := c
    by_cases hj : j = a <;> simp [cellErase, hj, ih]

/-- A byte read after a byte written. -/
theorem cellGet_set (l : List Host.Cell) (a : Nat) (b : Byte) (k : Nat) :
    cellGet (cellSet l a b) k = if k = a then b else cellGet l k := by
  unfold cellSet
  split
  · next hb => simp [cellGet_erase, hb]
  · rw [cellGet_insert _ _ _ _ (cellErase_erase l a), cellGet_erase]
    split <;> rfl

/-! ## Words -/

theorem highByte_append_lowByte (v : Word) : highByte v ++ lowByte v = v := by
  apply BitVec.eq_of_getLsbD_eq
  intro i hi
  simp only [BitVec.getLsbD_append, highByte, lowByte, BitVec.getLsbD_extractLsb']
  by_cases h : i < 8
  · simp [h]
  · have : i - 8 < 8 := by omega
    simp [h, this]
    congr 1
    omega

/-- A word read after a word written (R52, R61). -/
@[simp] theorem Memory.read_write (m : Memory) (a v b : Word) :
    (m.write a v).read b = if b = a then v else m.read b := by
  by_cases h : b = a
  · subst h
    simp [Memory.read, Memory.write, cellGet_set, highByte_append_lowByte]
  · have hn : b.toNat ≠ a.toNat := fun e => h (BitVec.eq_of_toNat_eq e)
    have h1 : 2 * b.toNat ≠ 2 * a.toNat + 1 := by omega
    have h2 : 2 * b.toNat + 1 ≠ 2 * a.toNat := by omega
    simp [Memory.read, Memory.write, cellGet_set, h, h1, h2, hn]

theorem Memory.read_empty (a : Word) : (Memory.mk []).read a = 0 := by
  simp [Memory.read, cellGet]

/-! ## The canonical form -/

theorem mem_cellErase {l : List Host.Cell} {a : Nat} {c : Host.Cell} (h : c ∈ cellErase l a) : c ∈ l ∧ c.1 ≠ a := by
  induction l with
  | nil => simp [cellErase] at h
  | cons d rest ih =>
    obtain ⟨j, b⟩ := d
    by_cases hj : j = a
    · rw [cellErase, if_pos hj] at h
      exact ⟨List.mem_cons_of_mem _ (ih h).1, (ih h).2⟩
    · rw [cellErase, if_neg hj, List.mem_cons] at h
      rcases h with rfl | h
      · exact ⟨List.mem_cons_self, hj⟩
      · exact ⟨List.mem_cons_of_mem _ (ih h).1, (ih h).2⟩

theorem mem_cellInsert {l : List Host.Cell} {a : Nat} {b : Byte} {c : Host.Cell} (h : c ∈ cellInsert l a b) :
    c = (a, b) ∨ c ∈ l := by
  induction l with
  | nil => simpa [cellInsert] using h
  | cons d rest ih =>
    obtain ⟨j, e⟩ := d
    by_cases hj : a < j
    · rw [cellInsert, if_pos hj, List.mem_cons] at h
      exact h
    · rw [cellInsert, if_neg hj, List.mem_cons] at h
      rcases h with rfl | h
      · simp
      · rcases ih h with h | h
        · exact .inl h
        · exact .inr (List.mem_cons_of_mem _ h)

theorem pairwise_cellErase {l : List Host.Cell} (a : Nat) (h : l.Pairwise (fun c d => c.1 < d.1)) :
    (cellErase l a).Pairwise (fun c d => c.1 < d.1) := by
  induction l with
  | nil => simp [cellErase]
  | cons d rest ih =>
    obtain ⟨j, e⟩ := d
    rw [List.pairwise_cons] at h
    by_cases hj : j = a
    · simpa [cellErase, hj] using ih h.2
    · simp only [cellErase, hj, if_false, List.pairwise_cons]
      exact ⟨fun c hc => h.1 c (mem_cellErase hc).1, ih h.2⟩

theorem pairwise_cellInsert {l : List Host.Cell} (a : Nat) (b : Byte) (h : l.Pairwise (fun c d => c.1 < d.1))
    (ha : ∀ c ∈ l, c.1 ≠ a) : (cellInsert l a b).Pairwise (fun c d => c.1 < d.1) := by
  induction l with
  | nil => simp [cellInsert]
  | cons d rest ih =>
    obtain ⟨j, e⟩ := d
    have hr := List.pairwise_cons.1 h
    by_cases hj : a < j
    · simp only [cellInsert, hj, if_true]
      refine List.pairwise_cons.2 ⟨?_, h⟩
      intro c hc
      rcases List.mem_cons.1 hc with rfl | hc
      · exact hj
      · exact Nat.lt_trans hj (hr.1 c hc)
    · simp only [cellInsert, hj, if_false]
      refine List.pairwise_cons.2 ⟨?_, ih hr.2 (fun c hc => ha c (List.mem_cons_of_mem _ hc))⟩
      intro c hc
      rcases mem_cellInsert hc with rfl | hc
      · have := ha (j, e) List.mem_cons_self
        simp at this ⊢
        omega
      · exact hr.1 c hc

theorem cellSet_wf {l : List Host.Cell} {a : Nat} {b : Byte}
    (h : l.Pairwise (fun c d => c.1 < d.1) ∧ ∀ c ∈ l, c.1 < 0x20000 ∧ c.2 ≠ 0) (ha : a < 0x20000) :
    (cellSet l a b).Pairwise (fun c d => c.1 < d.1) ∧ ∀ c ∈ cellSet l a b, c.1 < 0x20000 ∧ c.2 ≠ 0 := by
  unfold cellSet
  split
  · exact ⟨pairwise_cellErase a h.1, fun c hc => h.2 c (mem_cellErase hc).1⟩
  · next hb =>
    refine ⟨pairwise_cellInsert a b (pairwise_cellErase a h.1) (fun c hc => (mem_cellErase hc).2), ?_⟩
    intro c hc
    rcases mem_cellInsert hc with rfl | hc
    · exact ⟨ha, hb⟩
    · exact h.2 c (mem_cellErase hc).1

/-- A store keeps the canonical form. -/
theorem Memory.write_wf {m : Memory} (h : m.wf) (a v : Word) : (m.write a v).wf := by
  have ha := a.isLt
  exact cellSet_wf (cellSet_wf h (by omega)) (by omega)

theorem Memory.empty_wf : (Memory.mk []).wf := by decide

theorem Memory.loadWords_wf {m : Memory} (h : m.wf) (ws : List Word) : ∀ o, (m.loadWords o ws).wf := by
  induction ws generalizing m with
  | nil => exact fun _ => h
  | cons w ws ih => exact fun o => ih (Memory.write_wf h o w) (o + 1)

theorem Memory.loadFile_wf {m m' : Memory} (h : m.wf) {bytes : List Byte} (hl : m.loadFile bytes = some m') :
    m'.wf := by
  unfold Memory.loadFile at hl
  split at hl
  · split at hl
    · cases hl
      exact Memory.loadWords_wf h _ _
    · cases hl
  · cases hl
  · cases hl

end Sys2Proof.Machine
end

