-- ==== Sys2Proof/Laws/State.lean ====
section
/-! SUPPORT. One lemma per field per update of the state, and what a register reads as after each. -/

namespace Sys2Proof.Machine

/-! ### `setReg` -/

@[simp] theorem State.setReg_regs (s : State) (r : Reg) (v : Word) : (s.setReg r v).regs = s.regs.set r v := rfl
@[simp] theorem State.setReg_pc (s : State) (r : Reg) (v : Word) : (s.setReg r v).pc = s.pc := rfl
@[simp] theorem State.setReg_cond (s : State) (r : Reg) (v : Word) : (s.setReg r v).cond = s.cond := rfl
@[simp] theorem State.setReg_ir (s : State) (r : Reg) (v : Word) : (s.setReg r v).ir = s.ir := rfl
@[simp] theorem State.setReg_mem (s : State) (r : Reg) (v : Word) : (s.setReg r v).mem = s.mem := rfl
@[simp] theorem State.setReg_runState (s : State) (r : Reg) (v : Word) : (s.setReg r v).runState = s.runState := rfl
@[simp] theorem State.setReg_faultCause (s : State) (r : Reg) (v : Word) : (s.setReg r v).faultCause = s.faultCause := rfl
@[simp] theorem State.setReg_faultIr (s : State) (r : Reg) (v : Word) : (s.setReg r v).faultIr = s.faultIr := rfl
@[simp] theorem State.setReg_faultAddr (s : State) (r : Reg) (v : Word) : (s.setReg r v).faultAddr = s.faultAddr := rfl
@[simp] theorem State.setReg_input (s : State) (r : Reg) (v : Word) : (s.setReg r v).input = s.input := rfl
@[simp] theorem State.setReg_inputEnded (s : State) (r : Reg) (v : Word) : (s.setReg r v).inputEnded = s.inputEnded := rfl
@[simp] theorem State.setReg_output (s : State) (r : Reg) (v : Word) : (s.setReg r v).output = s.output := rfl
@[simp] theorem State.setReg_stopRequested (s : State) (r : Reg) (v : Word) : (s.setReg r v).stopRequested = s.stopRequested := rfl
@[simp] theorem State.setReg_schedule (s : State) (r : Reg) (v : Word) : (s.setReg r v).schedule = s.schedule := rfl
@[simp] theorem State.setReg_phase (s : State) (r : Reg) (v : Word) : (s.setReg r v).phase = s.phase := rfl
@[simp] theorem State.setReg_cfg (s : State) (r : Reg) (v : Word) : (s.setReg r v).cfg = s.cfg := rfl
@[simp] theorem State.setReg_draws (s : State) (r : Reg) (v : Word) : (s.setReg r v).draws = s.draws := rfl

/-! ### `link` -/

@[simp] theorem State.link_regs (s : State) : s.link.regs = s.regs.set .r7 s.pc := rfl
@[simp] theorem State.link_pc (s : State) : s.link.pc = s.pc := rfl
@[simp] theorem State.link_cond (s : State) : s.link.cond = s.cond := rfl
@[simp] theorem State.link_ir (s : State) : s.link.ir = s.ir := rfl
@[simp] theorem State.link_mem (s : State) : s.link.mem = s.mem := rfl
@[simp] theorem State.link_runState (s : State) : s.link.runState = s.runState := rfl
@[simp] theorem State.link_faultCause (s : State) : s.link.faultCause = s.faultCause := rfl
@[simp] theorem State.link_faultIr (s : State) : s.link.faultIr = s.faultIr := rfl
@[simp] theorem State.link_faultAddr (s : State) : s.link.faultAddr = s.faultAddr := rfl
@[simp] theorem State.link_input (s : State) : s.link.input = s.input := rfl
@[simp] theorem State.link_inputEnded (s : State) : s.link.inputEnded = s.inputEnded := rfl
@[simp] theorem State.link_output (s : State) : s.link.output = s.output := rfl
@[simp] theorem State.link_stopRequested (s : State) : s.link.stopRequested = s.stopRequested := rfl
@[simp] theorem State.link_schedule (s : State) : s.link.schedule = s.schedule := rfl
@[simp] theorem State.link_phase (s : State) : s.link.phase = s.phase := rfl
@[simp] theorem State.link_cfg (s : State) : s.link.cfg = s.cfg := rfl
@[simp] theorem State.link_draws (s : State) : s.link.draws = s.draws := rfl

/-! ### `memWrite` -/

@[simp] theorem State.memWrite_regs (s : State) (a v : Word) : (s.memWrite a v).regs = s.regs := rfl
@[simp] theorem State.memWrite_pc (s : State) (a v : Word) : (s.memWrite a v).pc = s.pc := rfl
@[simp] theorem State.memWrite_cond (s : State) (a v : Word) : (s.memWrite a v).cond = s.cond := rfl
@[simp] theorem State.memWrite_ir (s : State) (a v : Word) : (s.memWrite a v).ir = s.ir := rfl
@[simp] theorem State.memWrite_mem (s : State) (a v : Word) : (s.memWrite a v).mem = s.mem.write a v := rfl
@[simp] theorem State.memWrite_runState (s : State) (a v : Word) : (s.memWrite a v).runState = s.runState := rfl
@[simp] theorem State.memWrite_faultCause (s : State) (a v : Word) : (s.memWrite a v).faultCause = s.faultCause := rfl
@[simp] theorem State.memWrite_faultIr (s : State) (a v : Word) : (s.memWrite a v).faultIr = s.faultIr := rfl
@[simp] theorem State.memWrite_faultAddr (s : State) (a v : Word) : (s.memWrite a v).faultAddr = s.faultAddr := rfl
@[simp] theorem State.memWrite_input (s : State) (a v : Word) : (s.memWrite a v).input = s.input := rfl
@[simp] theorem State.memWrite_inputEnded (s : State) (a v : Word) : (s.memWrite a v).inputEnded = s.inputEnded := rfl
@[simp] theorem State.memWrite_output (s : State) (a v : Word) : (s.memWrite a v).output = s.output := rfl
@[simp] theorem State.memWrite_stopRequested (s : State) (a v : Word) : (s.memWrite a v).stopRequested = s.stopRequested := rfl
@[simp] theorem State.memWrite_schedule (s : State) (a v : Word) : (s.memWrite a v).schedule = s.schedule := rfl
@[simp] theorem State.memWrite_phase (s : State) (a v : Word) : (s.memWrite a v).phase = s.phase := rfl
@[simp] theorem State.memWrite_cfg (s : State) (a v : Word) : (s.memWrite a v).cfg = s.cfg := rfl
@[simp] theorem State.memWrite_draws (s : State) (a v : Word) : (s.memWrite a v).draws = s.draws := rfl

/-! ### `setcc` -/

@[simp] theorem State.setcc_regs (s : State) (r : Reg) : (s.setcc r).regs = s.regs := rfl
@[simp] theorem State.setcc_pc (s : State) (r : Reg) : (s.setcc r).pc = s.pc := rfl
@[simp] theorem State.setcc_cond (s : State) (r : Reg) : (s.setcc r).cond = flagOf (s.reg r) := rfl
@[simp] theorem State.setcc_ir (s : State) (r : Reg) : (s.setcc r).ir = s.ir := rfl
@[simp] theorem State.setcc_mem (s : State) (r : Reg) : (s.setcc r).mem = s.mem := rfl
@[simp] theorem State.setcc_runState (s : State) (r : Reg) : (s.setcc r).runState = s.runState := rfl
@[simp] theorem State.setcc_faultCause (s : State) (r : Reg) : (s.setcc r).faultCause = s.faultCause := rfl
@[simp] theorem State.setcc_faultIr (s : State) (r : Reg) : (s.setcc r).faultIr = s.faultIr := rfl
@[simp] theorem State.setcc_faultAddr (s : State) (r : Reg) : (s.setcc r).faultAddr = s.faultAddr := rfl
@[simp] theorem State.setcc_input (s : State) (r : Reg) : (s.setcc r).input = s.input := rfl
@[simp] theorem State.setcc_inputEnded (s : State) (r : Reg) : (s.setcc r).inputEnded = s.inputEnded := rfl
@[simp] theorem State.setcc_output (s : State) (r : Reg) : (s.setcc r).output = s.output := rfl
@[simp] theorem State.setcc_stopRequested (s : State) (r : Reg) : (s.setcc r).stopRequested = s.stopRequested := rfl
@[simp] theorem State.setcc_schedule (s : State) (r : Reg) : (s.setcc r).schedule = s.schedule := rfl
@[simp] theorem State.setcc_phase (s : State) (r : Reg) : (s.setcc r).phase = s.phase := rfl
@[simp] theorem State.setcc_cfg (s : State) (r : Reg) : (s.setcc r).cfg = s.cfg := rfl
@[simp] theorem State.setcc_draws (s : State) (r : Reg) : (s.setcc r).draws = s.draws := rfl

/-! ### `takeTurn` -/

@[simp] theorem State.takeTurn_regs (s : State) : s.takeTurn.regs = s.regs := rfl
@[simp] theorem State.takeTurn_pc (s : State) : s.takeTurn.pc = s.pc := rfl
@[simp] theorem State.takeTurn_cond (s : State) : s.takeTurn.cond = s.cond := rfl
@[simp] theorem State.takeTurn_ir (s : State) : s.takeTurn.ir = s.ir := rfl
@[simp] theorem State.takeTurn_mem (s : State) : s.takeTurn.mem = s.mem := rfl
@[simp] theorem State.takeTurn_runState (s : State) : s.takeTurn.runState = s.runState := rfl
@[simp] theorem State.takeTurn_faultCause (s : State) : s.takeTurn.faultCause = s.faultCause := rfl
@[simp] theorem State.takeTurn_faultIr (s : State) : s.takeTurn.faultIr = s.faultIr := rfl
@[simp] theorem State.takeTurn_faultAddr (s : State) : s.takeTurn.faultAddr = s.faultAddr := rfl
theorem State.takeTurn_input (s : State) : s.takeTurn.input = if s.inputEnded then s.input else s.input ++ s.nextTurn.arrivals := rfl
theorem State.takeTurn_inputEnded (s : State) : s.takeTurn.inputEnded = (s.inputEnded || s.nextTurn.ends) := rfl
@[simp] theorem State.takeTurn_output (s : State) : s.takeTurn.output = s.output := rfl
theorem State.takeTurn_stopRequested (s : State) : s.takeTurn.stopRequested = (s.stopRequested || s.nextTurn.stops) := rfl
theorem State.takeTurn_schedule (s : State) : s.takeTurn.schedule = s.schedule.tail := rfl
@[simp] theorem State.takeTurn_phase (s : State) : s.takeTurn.phase = s.phase := rfl
@[simp] theorem State.takeTurn_cfg (s : State) : s.takeTurn.cfg = s.cfg := rfl
@[simp] theorem State.takeTurn_draws (s : State) : s.takeTurn.draws = s.draws := rfl

/-! ### `enterFault` -/

@[simp] theorem State.enterFault_regs (s : State) (c : FaultCause) (w a : Word) : (s.enterFault c w a).regs = s.regs := rfl
@[simp] theorem State.enterFault_pc (s : State) (c : FaultCause) (w a : Word) : (s.enterFault c w a).pc = s.pc := rfl
@[simp] theorem State.enterFault_cond (s : State) (c : FaultCause) (w a : Word) : (s.enterFault c w a).cond = s.cond := rfl
@[simp] theorem State.enterFault_ir (s : State) (c : FaultCause) (w a : Word) : (s.enterFault c w a).ir = s.ir := rfl
@[simp] theorem State.enterFault_mem (s : State) (c : FaultCause) (w a : Word) : (s.enterFault c w a).mem = s.mem := rfl
@[simp] theorem State.enterFault_runState (s : State) (c : FaultCause) (w a : Word) : (s.enterFault c w a).runState = .halted := rfl
@[simp] theorem State.enterFault_faultCause (s : State) (c : FaultCause) (w a : Word) : (s.enterFault c w a).faultCause = c := rfl
@[simp] theorem State.enterFault_faultIr (s : State) (c : FaultCause) (w a : Word) : (s.enterFault c w a).faultIr = w := rfl
@[simp] theorem State.enterFault_faultAddr (s : State) (c : FaultCause) (w a : Word) : (s.enterFault c w a).faultAddr = a := rfl
@[simp] theorem State.enterFault_input (s : State) (c : FaultCause) (w a : Word) : (s.enterFault c w a).input = s.input := rfl
@[simp] theorem State.enterFault_inputEnded (s : State) (c : FaultCause) (w a : Word) : (s.enterFault c w a).inputEnded = s.inputEnded := rfl
@[simp] theorem State.enterFault_output (s : State) (c : FaultCause) (w a : Word) : (s.enterFault c w a).output = s.output := rfl
@[simp] theorem State.enterFault_stopRequested (s : State) (c : FaultCause) (w a : Word) : (s.enterFault c w a).stopRequested = s.stopRequested := rfl
@[simp] theorem State.enterFault_schedule (s : State) (c : FaultCause) (w a : Word) : (s.enterFault c w a).schedule = s.schedule := rfl
@[simp] theorem State.enterFault_phase (s : State) (c : FaultCause) (w a : Word) : (s.enterFault c w a).phase = .between := rfl
@[simp] theorem State.enterFault_cfg (s : State) (c : FaultCause) (w a : Word) : (s.enterFault c w a).cfg = s.cfg := rfl
@[simp] theorem State.enterFault_draws (s : State) (c : FaultCause) (w a : Word) : (s.enterFault c w a).draws = s.draws := rfl

/-! ### `raise` -/

@[simp] theorem State.raise_regs (s : State) (c : FaultCause) : (s.raise c).regs = s.regs := rfl
@[simp] theorem State.raise_pc (s : State) (c : FaultCause) : (s.raise c).pc = s.pc := rfl
@[simp] theorem State.raise_cond (s : State) (c : FaultCause) : (s.raise c).cond = s.cond := rfl
@[simp] theorem State.raise_ir (s : State) (c : FaultCause) : (s.raise c).ir = s.ir := rfl
@[simp] theorem State.raise_mem (s : State) (c : FaultCause) : (s.raise c).mem = s.mem := rfl
@[simp] theorem State.raise_runState (s : State) (c : FaultCause) : (s.raise c).runState = .halted := rfl
@[simp] theorem State.raise_faultCause (s : State) (c : FaultCause) : (s.raise c).faultCause = c := rfl
@[simp] theorem State.raise_faultIr (s : State) (c : FaultCause) : (s.raise c).faultIr = s.ir := rfl
@[simp] theorem State.raise_faultAddr (s : State) (c : FaultCause) : (s.raise c).faultAddr = s.pc - 1 := rfl
@[simp] theorem State.raise_input (s : State) (c : FaultCause) : (s.raise c).input = s.input := rfl
@[simp] theorem State.raise_inputEnded (s : State) (c : FaultCause) : (s.raise c).inputEnded = s.inputEnded := rfl
@[simp] theorem State.raise_output (s : State) (c : FaultCause) : (s.raise c).output = s.output := rfl
@[simp] theorem State.raise_stopRequested (s : State) (c : FaultCause) : (s.raise c).stopRequested = s.stopRequested := rfl
@[simp] theorem State.raise_schedule (s : State) (c : FaultCause) : (s.raise c).schedule = s.schedule := rfl
@[simp] theorem State.raise_phase (s : State) (c : FaultCause) : (s.raise c).phase = .between := rfl
@[simp] theorem State.raise_cfg (s : State) (c : FaultCause) : (s.raise c).cfg = s.cfg := rfl
@[simp] theorem State.raise_draws (s : State) (c : FaultCause) : (s.raise c).draws = s.draws := rfl

/-! ### `raiseAtFetch` -/

@[simp] theorem State.raiseAtFetch_regs (s : State) : s.raiseAtFetch.regs = s.regs := rfl
@[simp] theorem State.raiseAtFetch_pc (s : State) : s.raiseAtFetch.pc = s.pc := rfl
@[simp] theorem State.raiseAtFetch_cond (s : State) : s.raiseAtFetch.cond = s.cond := rfl
@[simp] theorem State.raiseAtFetch_ir (s : State) : s.raiseAtFetch.ir = s.ir := rfl
@[simp] theorem State.raiseAtFetch_mem (s : State) : s.raiseAtFetch.mem = s.mem := rfl
@[simp] theorem State.raiseAtFetch_runState (s : State) : s.raiseAtFetch.runState = .halted := rfl
@[simp] theorem State.raiseAtFetch_faultCause (s : State) : s.raiseAtFetch.faultCause = .hostIOFailure := rfl
@[simp] theorem State.raiseAtFetch_faultAddr (s : State) : s.raiseAtFetch.faultAddr = s.pc := rfl
@[simp] theorem State.raiseAtFetch_input (s : State) : s.raiseAtFetch.input = s.input := rfl
@[simp] theorem State.raiseAtFetch_inputEnded (s : State) : s.raiseAtFetch.inputEnded = s.inputEnded := rfl
@[simp] theorem State.raiseAtFetch_output (s : State) : s.raiseAtFetch.output = s.output := rfl
@[simp] theorem State.raiseAtFetch_stopRequested (s : State) : s.raiseAtFetch.stopRequested = s.stopRequested := rfl
@[simp] theorem State.raiseAtFetch_schedule (s : State) : s.raiseAtFetch.schedule = s.schedule := rfl
@[simp] theorem State.raiseAtFetch_phase (s : State) : s.raiseAtFetch.phase = .between := rfl
@[simp] theorem State.raiseAtFetch_cfg (s : State) : s.raiseAtFetch.cfg = s.cfg := rfl
@[simp] theorem State.raiseAtFetch_draws (s : State) : s.raiseAtFetch.draws = s.draws + 1 := rfl

/-! ### `stop` -/

@[simp] theorem State.stop_regs (s : State) : s.stop.regs = s.regs := rfl
@[simp] theorem State.stop_pc (s : State) : s.stop.pc = s.pc := rfl
@[simp] theorem State.stop_cond (s : State) : s.stop.cond = s.cond := rfl
@[simp] theorem State.stop_ir (s : State) : s.stop.ir = s.ir := rfl
@[simp] theorem State.stop_mem (s : State) : s.stop.mem = s.mem := rfl
@[simp] theorem State.stop_runState (s : State) : s.stop.runState = .halted := rfl
@[simp] theorem State.stop_faultCause (s : State) : s.stop.faultCause = s.faultCause := rfl
@[simp] theorem State.stop_faultIr (s : State) : s.stop.faultIr = s.faultIr := rfl
@[simp] theorem State.stop_faultAddr (s : State) : s.stop.faultAddr = s.faultAddr := rfl
@[simp] theorem State.stop_input (s : State) : s.stop.input = s.input := rfl
@[simp] theorem State.stop_inputEnded (s : State) : s.stop.inputEnded = s.inputEnded := rfl
@[simp] theorem State.stop_output (s : State) : s.stop.output = s.output := rfl
@[simp] theorem State.stop_stopRequested (s : State) : s.stop.stopRequested = s.stopRequested := rfl
@[simp] theorem State.stop_schedule (s : State) : s.stop.schedule = s.schedule := rfl
@[simp] theorem State.stop_phase (s : State) : s.stop.phase = .between := rfl
@[simp] theorem State.stop_cfg (s : State) : s.stop.cfg = s.cfg := rfl
@[simp] theorem State.stop_draws (s : State) : s.stop.draws = s.draws := rfl

/-! ### `complete` -/

@[simp] theorem State.complete_regs (s : State) : s.complete.regs = s.regs := rfl
@[simp] theorem State.complete_pc (s : State) : s.complete.pc = s.pc := rfl
@[simp] theorem State.complete_cond (s : State) : s.complete.cond = s.cond := rfl
@[simp] theorem State.complete_ir (s : State) : s.complete.ir = s.ir := rfl
@[simp] theorem State.complete_mem (s : State) : s.complete.mem = s.mem := rfl
@[simp] theorem State.complete_runState (s : State) : s.complete.runState = s.runState := rfl
@[simp] theorem State.complete_faultCause (s : State) : s.complete.faultCause = s.faultCause := rfl
@[simp] theorem State.complete_faultIr (s : State) : s.complete.faultIr = s.faultIr := rfl
@[simp] theorem State.complete_faultAddr (s : State) : s.complete.faultAddr = s.faultAddr := rfl
@[simp] theorem State.complete_input (s : State) : s.complete.input = s.input := rfl
@[simp] theorem State.complete_inputEnded (s : State) : s.complete.inputEnded = s.inputEnded := rfl
@[simp] theorem State.complete_output (s : State) : s.complete.output = s.output := rfl
@[simp] theorem State.complete_stopRequested (s : State) : s.complete.stopRequested = s.stopRequested := rfl
@[simp] theorem State.complete_schedule (s : State) : s.complete.schedule = s.schedule := rfl
@[simp] theorem State.complete_phase (s : State) : s.complete.phase = .between := rfl
@[simp] theorem State.complete_cfg (s : State) : s.complete.cfg = s.cfg := rfl
@[simp] theorem State.complete_draws (s : State) : s.complete.draws = s.draws := rfl

/-! ### `await` -/

@[simp] theorem State.await_regs (s : State) (p : Phase) : (s.await p).regs = s.regs := by
  unfold State.await; split <;> rfl
@[simp] theorem State.await_pc (s : State) (p : Phase) : (s.await p).pc = s.pc := by
  unfold State.await; split <;> rfl
@[simp] theorem State.await_cond (s : State) (p : Phase) : (s.await p).cond = s.cond := by
  unfold State.await; split <;> rfl
@[simp] theorem State.await_ir (s : State) (p : Phase) : (s.await p).ir = s.ir := by
  unfold State.await; split <;> rfl
@[simp] theorem State.await_mem (s : State) (p : Phase) : (s.await p).mem = s.mem := by
  unfold State.await; split <;> rfl
@[simp] theorem State.await_faultCause (s : State) (p : Phase) : (s.await p).faultCause = s.faultCause := by
  unfold State.await; split <;> rfl
@[simp] theorem State.await_faultIr (s : State) (p : Phase) : (s.await p).faultIr = s.faultIr := by
  unfold State.await; split <;> rfl
@[simp] theorem State.await_faultAddr (s : State) (p : Phase) : (s.await p).faultAddr = s.faultAddr := by
  unfold State.await; split <;> rfl
@[simp] theorem State.await_input (s : State) (p : Phase) : (s.await p).input = s.input := by
  unfold State.await; split <;> rfl
@[simp] theorem State.await_inputEnded (s : State) (p : Phase) : (s.await p).inputEnded = s.inputEnded := by
  unfold State.await; split <;> rfl
@[simp] theorem State.await_output (s : State) (p : Phase) : (s.await p).output = s.output := by
  unfold State.await; split <;> rfl
@[simp] theorem State.await_stopRequested (s : State) (p : Phase) : (s.await p).stopRequested = s.stopRequested := by
  unfold State.await; split <;> rfl
@[simp] theorem State.await_schedule (s : State) (p : Phase) : (s.await p).schedule = s.schedule := by
  unfold State.await; split <;> rfl
@[simp] theorem State.await_cfg (s : State) (p : Phase) : (s.await p).cfg = s.cfg := by
  unfold State.await; split <;> rfl
@[simp] theorem State.await_draws (s : State) (p : Phase) : (s.await p).draws = s.draws := by
  unfold State.await; split <;> rfl

theorem State.await_stop (s : State) (p : Phase) (h : s.stopRequested = true) : s.await p = s.stop := by
  simp [State.await, h]

theorem State.await_block (s : State) (p : Phase) (h : s.stopRequested = false) :
    s.await p = { s with phase := p } := by
  simp [State.await, h]

/-! ### Registers -/

@[simp] theorem State.memPeek_eq (s : State) (a : Word) : s.memPeek a = s.mem.read a := rfl

theorem State.reg_eq (s : State) (r : Reg) : s.reg r = s.regs.get r := rfl

/-- A read that follows a write in the same instruction sees the written value (R8). -/
@[simp] theorem State.reg_setReg (s : State) (r : Reg) (v : Word) (q : Reg) :
    (s.setReg r v).reg q = if q = r then v else s.reg q := RegFile.get_set _ _ _ _

@[simp] theorem State.reg_link (s : State) (q : Reg) : s.link.reg q = if q = .r7 then s.pc else s.reg q :=
  RegFile.get_set _ _ _ _

/-- Two states with the same register file read the same. -/
theorem State.reg_congr {s t : State} (h : t.regs = s.regs) (r : Reg) : t.reg r = s.reg r := by
  simp [State.reg, h]

/-- `x[DR] <- v; setcc(DR)` in one update: the flag is that of the value written. -/
theorem State.setRegCc_eq (s : State) (r : Reg) (v : Word) :
    s.setRegCc r v = { s with regs := s.regs.set r v, cond := flagOf v } := by
  simp [State.setRegCc, State.setcc, State.setReg, State.reg]

end Sys2Proof.Machine
end

