-- ==== Sys2Proof/Laws/Host.lean ====
section
/-! SUPPORT. What the host operations, the keyboard poll, `MemRead` and the fetch can do: for each, what holds of the state
after it when it succeeds and when it fails, which of the host's turns it takes, and that it succeeds exactly as long as the
host does. -/

namespace Sys2Proof.Machine

/-! ## The same core -/

theorem SameCore.refl (s : State) : SameCore s s := ⟨rfl, rfl, rfl, rfl, rfl, rfl, rfl, rfl, rfl, rfl, rfl, rfl⟩

theorem SameCore.trans {s t u : State} (h : SameCore s t) (h' : SameCore t u) : SameCore s u :=
  ⟨h'.regs.trans h.regs, h'.pc.trans h.pc, h'.cond.trans h.cond, h'.ir.trans h.ir, h'.mem.trans h.mem,
    h'.runState.trans h.runState, h'.faultCause.trans h.faultCause, h'.faultIr.trans h.faultIr,
    h'.faultAddr.trans h.faultAddr, h'.phase.trans h.phase, h'.cfg.trans h.cfg, h'.draws.trans h.draws⟩

theorem SameCore.symm {s t : State} (h : SameCore s t) : SameCore t s :=
  ⟨h.regs.symm, h.pc.symm, h.cond.symm, h.ir.symm, h.mem.symm, h.runState.symm, h.faultCause.symm, h.faultIr.symm,
    h.faultAddr.symm, h.phase.symm, h.cfg.symm, h.draws.symm⟩

theorem SameCore.reg {s t : State} (h : SameCore s t) (r : Reg) : t.reg r = s.reg r := State.reg_congr h.regs r

/-- The host's turn changes nothing of the core (R196). -/
theorem sameCore_takeTurn (s : State) : SameCore s s.takeTurn :=
  ⟨rfl, rfl, rfl, rfl, rfl, rfl, rfl, rfl, rfl, rfl, rfl, rfl⟩

theorem sameCore_takeTurns (s : State) (n : Nat) : SameCore s (State.takeTurn^[n] s) := by
  induction n generalizing s with
  | zero => exact .refl s
  | succ n ih => exact (sameCore_takeTurn s).trans (ih s.takeTurn)

@[simp] theorem takeTurns_output (s : State) (n : Nat) : (State.takeTurn^[n] s).output = s.output := by
  induction n generalizing s with
  | zero => rfl
  | succ n ih => exact ih s.takeTurn

/-! ## A reliable host -/

theorem State.HostReliable.nextTurn_fails {s : State} (h : s.HostReliable) : s.nextTurn.fails = false := by
  unfold State.nextTurn
  cases hs : s.schedule with
  | nil => rfl
  | cons t ts => exact h t (by simp [hs])

theorem State.HostReliable.of_schedule {s t : State} (h : s.HostReliable)
    (hs : ∀ x ∈ t.schedule, x ∈ s.schedule) : t.HostReliable := fun x hx => h x (hs x hx)

theorem State.HostReliable.after_takeTurn {s : State} (h : s.HostReliable) : s.takeTurn.HostReliable :=
  h.of_schedule fun _ hx => List.mem_of_mem_tail hx

theorem State.HostReliable.after_takeTurns {s : State} (h : s.HostReliable) (n : Nat) :
    (State.takeTurn^[n] s).HostReliable := by
  induction n generalizing s with
  | zero => exact h
  | succ n ih => exact ih h.after_takeTurn

/-! ## How long the host works, and which operation it fails first -/

@[simp] theorem takeTurns_schedule (s : State) (n : Nat) : (State.takeTurn^[n] s).schedule = s.schedule.drop n := by
  induction n generalizing s with
  | zero => rfl
  | succ n ih =>
    rw [Function.iterate_succ_apply, ih, State.takeTurn_schedule, ← List.drop_one, List.drop_drop, Nat.add_comm]

/-- What the host does at a turn depends on its schedule alone. -/
theorem takeTurns_nextTurn (s : State) (n : Nat) : (State.takeTurn^[n] s).nextTurn = (s.schedule.drop n).headD .quiet := by
  rw [State.nextTurn, takeTurns_schedule]

theorem State.HostReliable.worksFor {s : State} (h : s.HostReliable) (n : Nat) : s.HostWorksFor n :=
  fun j _ => (h.after_takeTurns j).nextTurn_fails

theorem State.HostWorksFor.mono {s : State} {m n : Nat} (h : s.HostWorksFor n) (hm : m ≤ n) : s.HostWorksFor m :=
  fun j hj => h j (by omega)

theorem State.HostWorksFor.nextTurn_fails {s : State} {n : Nat} (h : s.HostWorksFor (n + 1)) : s.nextTurn.fails = false :=
  h 0 (Nat.succ_pos n)

/-- After `m` operations there are `m` fewer to come. -/
theorem State.HostWorksFor.after {s t : State} {n : Nat} (m : Nat) (h : s.HostWorksFor (m + n))
    (ht : t.schedule = s.schedule.drop m) : t.HostWorksFor n := by
  intro j hj
  have := h (m + j) (by omega)
  rwa [takeTurns_nextTurn, ← List.drop_drop, ← ht, ← takeTurns_nextTurn] at this

theorem State.FailsFirstAt.after {s t : State} {k : Nat} (m : Nat) (h : s.FailsFirstAt (m + k))
    (ht : t.schedule = s.schedule.drop m) : t.FailsFirstAt k := by
  refine ⟨h.1.after m ht, ?_⟩
  have := h.2
  rwa [takeTurns_nextTurn, ← List.drop_drop, ← ht, ← takeTurns_nextTurn] at this

/-! ## The host turns an operation takes -/

/-- The turns the host has had between the two states, and whether it failed at one of them. -/
def TurnsTaken (s t : State) (failed : Bool) : Prop :=
  ∃ used : List HostTurn, s.schedule = used ++ t.schedule ∧ used.any (·.fails) = failed

theorem TurnsTaken.none {s t : State} (h : t.schedule = s.schedule) : TurnsTaken s t false := ⟨[], by simp [h], rfl⟩

theorem TurnsTaken.trans {s t u : State} {a b : Bool} (h : TurnsTaken s t a) (h' : TurnsTaken t u b) :
    TurnsTaken s u (a || b) := by
  obtain ⟨l, hl, rfl⟩ := h
  obtain ⟨m, hm, rfl⟩ := h'
  exact ⟨l ++ m, by rw [hl, hm, List.append_assoc], List.any_append⟩

theorem turnsTaken_takeTurn (s : State) : TurnsTaken s s.takeTurn s.nextTurn.fails := by
  cases h : s.schedule with
  | nil => exact ⟨[], by simp [State.takeTurn_schedule, h], by simp [State.nextTurn, h]; rfl⟩
  | cons t ts => exact ⟨[t], by simp [State.takeTurn_schedule, h], by simp [State.nextTurn, h]⟩

/-! ## Writing -/

theorem hostWriteChar_ok {s t : State} {b : Byte} {u : Unit} (h : s.hostWriteChar b = .ok u t) :
    SameCore s t ∧ t.output = s.output ++ [b] := by
  unfold State.hostWriteChar at h
  split at h
  · cases h
  · cases h
    exact ⟨⟨rfl, rfl, rfl, rfl, rfl, rfl, rfl, rfl, rfl, rfl, rfl, rfl⟩, rfl⟩

theorem hostWriteChar_failed {s t : State} {b : Byte} (h : s.hostWriteChar b = .failed t) :
    SameCore s t ∧ t.output = s.output := by
  unfold State.hostWriteChar at h
  split at h
  · cases h
    exact ⟨sameCore_takeTurn s, rfl⟩
  · cases h

theorem hostWriteChar_of_not_fails {s : State} (b : Byte) (h : s.nextTurn.fails = false) :
    s.hostWriteChar b = .ok () { s.takeTurn with output := s.output ++ [b] } := by
  simp [State.hostWriteChar, h]

theorem hostFlush_ok {s t : State} {u : Unit} (h : s.hostFlush = .ok u t) : SameCore s t ∧ t.output = s.output := by
  unfold State.hostFlush at h
  split at h
  · cases h
  · cases h
    exact ⟨sameCore_takeTurn s, rfl⟩

theorem hostFlush_failed {s t : State} (h : s.hostFlush = .failed t) : SameCore s t ∧ t.output = s.output := by
  unfold State.hostFlush at h
  split at h
  · cases h
    exact ⟨sameCore_takeTurn s, rfl⟩
  · cases h

theorem hostFlush_of_not_fails {s : State} (h : s.nextTurn.fails = false) : s.hostFlush = .ok () s.takeTurn := by
  simp [State.hostFlush, h]

theorem hostWriteAll_ok {bs : List Byte} {s t : State} {u : Unit} (h : s.hostWriteAll bs = .ok u t) :
    SameCore s t ∧ t.output = s.output ++ bs := by
  induction bs generalizing s with
  | nil =>
    cases h
    exact ⟨.refl _, by simp⟩
  | cons b bs ih =>
    unfold State.hostWriteAll at h
    split at h
    · cases h
    · next hw =>
      have h1 := hostWriteChar_ok hw
      have h2 := ih h
      exact ⟨h1.1.trans h2.1, by simp [h2.2, h1.2]⟩

/-- What was written before the failure stands (R162). -/
theorem hostWriteAll_failed {bs : List Byte} {s t : State} (h : s.hostWriteAll bs = .failed t) :
    SameCore s t ∧ s.output <+: t.output := by
  induction bs generalizing s with
  | nil => cases h
  | cons b bs ih =>
    unfold State.hostWriteAll at h
    split at h
    · next hw =>
      cases h
      have h1 := hostWriteChar_failed hw
      exact ⟨h1.1, by rw [h1.2]⟩
    · next hw =>
      have h1 := hostWriteChar_ok hw
      have h2 := ih h
      exact ⟨h1.1.trans h2.1, List.IsPrefix.trans ⟨[b], h1.2.symm⟩ h2.2⟩

/-- The output stream does not meet the host's turns. -/
theorem takeTurns_output_update (s : State) (n : Nat) (o : List Byte) :
    State.takeTurn^[n] { s with output := o } = { State.takeTurn^[n] s with output := o } := by
  induction n generalizing s with
  | zero => rfl
  | succ n ih => exact ih s.takeTurn

theorem takeTurns_regs_update (s : State) (n : Nat) (f : RegFile) :
    State.takeTurn^[n] { s with regs := f } = { State.takeTurn^[n] s with regs := f } := by
  induction n generalizing s with
  | zero => rfl
  | succ n ih => exact ih s.takeTurn

/-- The state after a reliable host has been given the characters `out` one by one. -/
def State.wrote (s : State) (out : List Byte) : State :=
  { State.takeTurn^[out.length] s with output := s.output ++ out }

theorem wrote_nil (s : State) : s.wrote [] = s := by simp [State.wrote]

theorem sameCore_wrote (s : State) (out : List Byte) : SameCore s (s.wrote out) :=
  have h := sameCore_takeTurns s out.length
  ⟨h.regs, h.pc, h.cond, h.ir, h.mem, h.runState, h.faultCause, h.faultIr, h.faultAddr, h.phase, h.cfg, h.draws⟩

@[simp] theorem wrote_output (s : State) (out : List Byte) : (s.wrote out).output = s.output ++ out := rfl

@[simp] theorem wrote_mem (s : State) (out : List Byte) : (s.wrote out).mem = s.mem := (sameCore_wrote s out).mem

theorem wrote_wrote (s : State) (out out' : List Byte) : (s.wrote out).wrote out' = s.wrote (out ++ out') := by
  simp only [State.wrote, takeTurns_output_update, List.length_append, List.append_assoc]
  rw [Nat.add_comm, Function.iterate_add_apply]

@[simp] theorem wrote_schedule (s : State) (out : List Byte) : (s.wrote out).schedule = s.schedule.drop out.length :=
  takeTurns_schedule s out.length

/-- A host that works for as many operations as there are characters takes them all. -/
theorem hostWriteAll_of_worksFor {s : State} (bs : List Byte) (h : s.HostWorksFor bs.length) :
    s.hostWriteAll bs = .ok () (s.wrote bs) := by
  induction bs generalizing s with
  | nil => rw [wrote_nil]; rfl
  | cons b bs ih =>
    have hw : s.hostWriteChar b = .ok () (s.wrote [b]) := hostWriteChar_of_not_fails b h.nextTurn_fails
    rw [List.length_cons, Nat.add_comm] at h
    simp only [State.hostWriteAll, hw, ih (h.after 1 (wrote_schedule s [b])), wrote_wrote, List.singleton_append]

/-- The first write that fails ends it; what was written before it stands (R162). -/
theorem hostWriteAll_of_failsFirstAt {s : State} (bs : List Byte) {k : Nat} (hk : k < bs.length) (h : s.FailsFirstAt k) :
    s.hostWriteAll bs = .failed (s.wrote (bs.take k)).takeTurn := by
  induction bs generalizing s k with
  | nil => simp at hk
  | cons b bs ih =>
    cases k with
    | zero =>
      have hf : s.nextTurn.fails = true := h.2
      simp [State.hostWriteAll, State.hostWriteChar, hf, wrote_nil]
    | succ k =>
      have hw : s.hostWriteChar b = .ok () (s.wrote [b]) := hostWriteChar_of_not_fails b h.1.nextTurn_fails
      rw [Nat.add_comm] at h
      simp only [State.hostWriteAll, hw, ih (Nat.lt_of_succ_lt_succ hk) (h.after 1 (wrote_schedule s [b])), wrote_wrote,
        List.singleton_append, List.take_succ_cons]

theorem hostFlush_of_fails {s : State} (h : s.nextTurn.fails = true) : s.hostFlush = .failed s.takeTurn := by
  simp [State.hostFlush, h]

theorem hostWriteChar_of_fails {s : State} (b : Byte) (h : s.nextTurn.fails = true) :
    s.hostWriteChar b = .failed s.takeTurn := by
  simp [State.hostWriteChar, h]

/-- Writing a list is writing its first part, then the rest. -/
theorem hostWriteAll_append (s : State) (bs cs : List Byte) :
    s.hostWriteAll (bs ++ cs) =
      match s.hostWriteAll bs with
      | .failed t => .failed t
      | .ok _ t => t.hostWriteAll cs := by
  induction bs generalizing s with
  | nil => rfl
  | cons b bs ih =>
    simp only [List.cons_append, State.hostWriteAll]
    cases s.hostWriteChar b with
    | failed t => rfl
    | ok u t => exact ih t

/-! ### Its turns -/

theorem hostWriteChar_turns_ok {s t : State} {b : Byte} {u : Unit} (h : s.hostWriteChar b = .ok u t) :
    TurnsTaken s t false := by
  unfold State.hostWriteChar at h
  split at h
  · cases h
  · next hf =>
    cases h
    exact (Bool.eq_false_iff.mpr hf) ▸ turnsTaken_takeTurn s

theorem hostWriteChar_turns_failed {s t : State} {b : Byte} (h : s.hostWriteChar b = .failed t) : TurnsTaken s t true := by
  unfold State.hostWriteChar at h
  split at h
  · next hf =>
    cases h
    exact hf ▸ turnsTaken_takeTurn s
  · cases h

theorem hostFlush_turns_ok {s t : State} {u : Unit} (h : s.hostFlush = .ok u t) : TurnsTaken s t false := by
  unfold State.hostFlush at h
  split at h
  · cases h
  · next hf =>
    cases h
    exact (Bool.eq_false_iff.mpr hf) ▸ turnsTaken_takeTurn s

theorem hostFlush_turns_failed {s t : State} (h : s.hostFlush = .failed t) : TurnsTaken s t true := by
  unfold State.hostFlush at h
  split at h
  · next hf =>
    cases h
    exact hf ▸ turnsTaken_takeTurn s
  · cases h

theorem hostWriteAll_turns_ok {bs : List Byte} {s t : State} {u : Unit} (h : s.hostWriteAll bs = .ok u t) :
    TurnsTaken s t false := by
  induction bs generalizing s with
  | nil =>
    cases h
    exact .none rfl
  | cons b bs ih =>
    unfold State.hostWriteAll at h
    split at h
    · cases h
    · next hw => exact (hostWriteChar_turns_ok hw).trans (ih h)

theorem hostWriteAll_turns_failed {bs : List Byte} {s t : State} (h : s.hostWriteAll bs = .failed t) :
    TurnsTaken s t true := by
  induction bs generalizing s with
  | nil => cases h
  | cons b bs ih =>
    unfold State.hostWriteAll at h
    split at h
    · next hw =>
      cases h
      exact hostWriteChar_turns_failed hw
    · next hw => exact (hostWriteChar_turns_ok hw).trans (ih h)

/-! ## Reading -/

theorem hostReadChar_some {s t : State} {c : Byte} (h : s.hostReadChar = .ok (some c) t) :
    SameCore s t ∧ t.output = s.output ∧ s.takeTurn.input = c :: t.input := by
  unfold State.hostReadChar at h
  split at h
  · cases h
  · split at h
    · next hi =>
      cases h
      exact ⟨⟨rfl, rfl, rfl, rfl, rfl, rfl, rfl, rfl, rfl, rfl, rfl, rfl⟩, rfl, hi⟩
    · split at h <;> cases h

theorem hostReadChar_none {s t : State} (h : s.hostReadChar = .ok none t) :
    t = s.takeTurn ∧ s.takeTurn.input = [] ∧ s.takeTurn.inputEnded = false := by
  unfold State.hostReadChar at h
  split at h
  · cases h
  · split at h
    · cases h
    · next hi =>
      split at h
      · cases h
      · next he =>
        cases h
        exact ⟨rfl, hi, by simpa using he⟩

theorem hostReadChar_failed {s t : State} (h : s.hostReadChar = .failed t) :
    t = s.takeTurn ∧ (s.nextTurn.fails = true ∨ (s.takeTurn.input = [] ∧ s.takeTurn.inputEnded = true)) := by
  unfold State.hostReadChar at h
  split at h
  · next hf =>
    cases h
    exact ⟨rfl, .inl hf⟩
  · split at h
    · cases h
    · next hi =>
      split at h
      · next he =>
        cases h
        exact ⟨rfl, .inr ⟨hi, he⟩⟩
      · cases h

theorem hostReadChar_of_input {s : State} {c : Byte} {rest : List Byte} (hf : s.nextTurn.fails = false)
    (hi : s.takeTurn.input = c :: rest) : s.hostReadChar = .ok (some c) { s.takeTurn with input := rest } := by
  unfold State.hostReadChar
  rw [if_neg (by simp [hf]), hi]

theorem hostReadChar_of_no_input {s : State} (hf : s.nextTurn.fails = false) (hi : s.takeTurn.input = [])
    (he : s.takeTurn.inputEnded = false) : s.hostReadChar = .ok none s.takeTurn := by
  unfold State.hostReadChar
  rw [if_neg (by simp [hf]), hi]
  simp [he]

theorem hostReadChar_of_failure {s : State}
    (h : s.nextTurn.fails = true ∨ (s.takeTurn.input = [] ∧ s.takeTurn.inputEnded = true)) :
    s.hostReadChar = .failed s.takeTurn := by
  unfold State.hostReadChar
  by_cases hf : s.nextTurn.fails = true
  · rw [if_pos hf]
  · rcases h with h | ⟨hi, he⟩
    · exact absurd h hf
    · rw [if_neg hf, hi]
      simp [he]

theorem hostReadChar_turns_ok {s t : State} {c : Option Byte} (h : s.hostReadChar = .ok c t) : TurnsTaken s t false := by
  have hf : s.nextTurn.fails = false := by
    by_contra hf
    simp [State.hostReadChar, Bool.eq_true_of_not_eq_false hf] at h
  have ht : t.schedule = s.takeTurn.schedule := by
    cases c with
    | none => rw [(hostReadChar_none h).1]
    | some c =>
      simp only [State.hostReadChar, hf, Bool.false_eq_true, if_false] at h
      split at h
      · cases h
        rfl
      · split at h <;> cases h
  exact (hf ▸ turnsTaken_takeTurn s).trans (.none ht)

/-- A read that fails: the host failed it, or the input has ended. -/
theorem hostReadChar_turns_failed {s t : State} (h : s.hostReadChar = .failed t) :
    TurnsTaken s t true ∨ (TurnsTaken s t false ∧ t.input = [] ∧ t.inputEnded = true) := by
  obtain ⟨rfl, he⟩ := hostReadChar_failed h
  have ht := turnsTaken_takeTurn s
  cases hf : s.nextTurn.fails with
  | true => exact .inl (hf ▸ ht)
  | false =>
    rcases he with he | he
    · simp [hf] at he
    · exact .inr ⟨hf ▸ ht, he⟩

/-- A queued character stays queued at the host's next turn. -/
theorem takeTurn_input_of_cons {s : State} {c : Byte} {rest : List Byte} (h : s.input = c :: rest) :
    ∃ more, s.takeTurn.input = c :: (rest ++ more) := by
  rw [State.takeTurn_input]
  split
  · exact ⟨[], by simp [h]⟩
  · exact ⟨s.nextTurn.arrivals, by simp [h]⟩

/-! ## The keyboard poll and `MemRead` (R50, R51, R65) -/

/-- The two states agree on everything a `MemRead` leaves alone, and on every word but KBSR and KBDR. -/
structure SameButKeyboard (s t : State) : Prop where
  regs       : t.regs = s.regs
  pc         : t.pc = s.pc
  cond       : t.cond = s.cond
  ir         : t.ir = s.ir
  mem        : ∀ a, a ≠ kbsrAddr → a ≠ kbdrAddr → t.mem.read a = s.mem.read a
  memWf      : s.mem.wf → t.mem.wf
  runState   : t.runState = s.runState
  faultCause : t.faultCause = s.faultCause
  faultIr    : t.faultIr = s.faultIr
  faultAddr  : t.faultAddr = s.faultAddr
  output     : t.output = s.output
  phase      : t.phase = s.phase
  cfg        : t.cfg = s.cfg

theorem SameButKeyboard.refl (s : State) : SameButKeyboard s s :=
  ⟨rfl, rfl, rfl, rfl, fun _ _ _ => rfl, id, rfl, rfl, rfl, rfl, rfl, rfl, rfl⟩

theorem SameButKeyboard.reg {s t : State} (h : SameButKeyboard s t) (r : Reg) : t.reg r = s.reg r :=
  State.reg_congr h.regs r

theorem SameButKeyboard.trans {s t u : State} (h : SameButKeyboard s t) (h' : SameButKeyboard t u) :
    SameButKeyboard s u :=
  ⟨h'.regs.trans h.regs, h'.pc.trans h.pc, h'.cond.trans h.cond, h'.ir.trans h.ir,
    fun a h1 h2 => (h'.mem a h1 h2).trans (h.mem a h1 h2), fun w => h'.memWf (h.memWf w), h'.runState.trans h.runState,
    h'.faultCause.trans h.faultCause, h'.faultIr.trans h.faultIr, h'.faultAddr.trans h.faultAddr,
    h'.output.trans h.output, h'.phase.trans h.phase, h'.cfg.trans h.cfg⟩

theorem SameCore.sameButKeyboard {s t : State} (h : SameCore s t) (ho : t.output = s.output) : SameButKeyboard s t :=
  ⟨h.regs, h.pc, h.cond, h.ir, fun a _ _ => by rw [h.mem], fun w => by rw [h.mem]; exact w, h.runState, h.faultCause,
    h.faultIr, h.faultAddr, ho, h.phase, h.cfg⟩

theorem hostPoll_of_not_fails {s : State} (h : s.nextTurn.fails = false) :
    s.hostPoll = .ok (!s.takeTurn.input.isEmpty) s.takeTurn := by
  simp [State.hostPoll, h]

theorem hostPoll_of_fails {s : State} (h : s.nextTurn.fails = true) : s.hostPoll = .failed s.takeTurn := by
  simp [State.hostPoll, h]

/-- No character queued: KBSR is cleared (R51). -/
theorem keyboardPoll_of_no_input {s : State} (hf : s.nextTurn.fails = false) (hi : s.takeTurn.input = []) :
    s.keyboardPoll = .ok () (s.takeTurn.memWrite kbsrAddr 0) := by
  simp [State.keyboardPoll, hostPoll_of_not_fails hf, hi]

/-- A character queued: it moves to KBDR and KBSR is set (R51). -/
theorem keyboardPoll_of_input {s : State} {c : Byte} {rest : List Byte} (hf : s.nextTurn.fails = false)
    (hf' : s.takeTurn.nextTurn.fails = false) (hi : s.takeTurn.takeTurn.input = c :: rest)
    (hq : s.takeTurn.input ≠ []) :
    s.keyboardPoll = .ok () { s.takeTurn.takeTurn with
      mem := (s.mem.write kbsrAddr (kbsrReady s.kbsr s.draws)).write kbdrAddr (zext8 c)
      input := rest
      draws := s.draws + 1 } := by
  have he : (!s.takeTurn.input.isEmpty) = true := by simpa using hq
  simp only [State.keyboardPoll, hostPoll_of_not_fails hf, he, hostReadChar_of_input hf' hi]
  rfl

theorem keyboardPoll_failed {s t : State} (h : s.keyboardPoll = .failed t) :
    SameCore s t ∧ t.output = s.output ∧ (s.nextTurn.fails = true ∨ s.takeTurn.nextTurn.fails = true) := by
  unfold State.keyboardPoll at h
  by_cases hf : s.nextTurn.fails = true
  · simp only [hostPoll_of_fails hf] at h
    cases h
    exact ⟨sameCore_takeTurn s, rfl, .inl hf⟩
  · have hf' : s.nextTurn.fails = false := by simpa using hf
    rw [hostPoll_of_not_fails hf'] at h
    cases hi : s.takeTurn.input with
    | nil => simp [hi] at h
    | cons c rest =>
      obtain ⟨more, hm⟩ := takeTurn_input_of_cons hi
      simp only [hi, List.isEmpty_cons, Bool.not_false] at h
      split at h
      · next hr =>
        cases h
        obtain ⟨rfl, hc⟩ := hostReadChar_failed hr
        refine ⟨(sameCore_takeTurn s).trans (sameCore_takeTurn _), rfl, .inr ?_⟩
        rcases hc with hc | ⟨hc, -⟩
        · exact hc
        · simp [hm] at hc
      · cases h
      · cases h

theorem keyboardPoll_ok {s t : State} {u : Unit} (h : s.keyboardPoll = .ok u t) : SameButKeyboard s t := by
  unfold State.keyboardPoll at h
  by_cases hf : s.nextTurn.fails = true
  · simp only [hostPoll_of_fails hf] at h
    cases h
  · rw [hostPoll_of_not_fails (by simpa using hf)] at h
    split at h
    · cases h
    · next hp =>
      obtain ⟨-, rfl⟩ := Res.ok.inj hp
      cases h
      refine ⟨rfl, rfl, rfl, rfl, ?_, ?_, rfl, rfl, rfl, rfl, rfl, rfl, rfl⟩
      · intro a ha _
        simp [ha]
      · exact fun w => Memory.write_wf w _ _
    · next hp =>
      obtain ⟨-, rfl⟩ := Res.ok.inj hp
      split at h
      · cases h
      · next hr =>
        cases h
        obtain ⟨rfl, -⟩ := hostReadChar_none hr
        refine ⟨rfl, rfl, rfl, rfl, ?_, ?_, rfl, rfl, rfl, rfl, rfl, rfl, rfl⟩
        · intro a ha _
          simp [ha]
        · exact fun w => Memory.write_wf w _ _
      · next hr =>
        cases h
        obtain ⟨hc, ho, -⟩ := hostReadChar_some hr
        have hc := (sameCore_takeTurn s).trans hc
        refine ⟨hc.regs, hc.pc, hc.cond, hc.ir, ?_, ?_, hc.runState, hc.faultCause, hc.faultIr, hc.faultAddr, ho,
          hc.phase, hc.cfg⟩
        · intro a ha ha'
          simp [ha, ha', hc.mem]
        · intro w
          refine Memory.write_wf (Memory.write_wf ?_ _ _) _ _
          rw [hc.mem]
          exact w

theorem memRead_of_ne {s : State} {a : Word} (h : a ≠ kbsrAddr) : s.memRead a = .ok (s.mem.read a) s := by
  simp [State.memRead, h]

theorem memRead_kbsr_of_ok {s t : State} {u : Unit} (h : s.keyboardPoll = .ok u t) :
    s.memRead kbsrAddr = .ok (t.mem.read kbsrAddr) t := by
  simp [State.memRead, h]

theorem memRead_kbsr_of_failed {s t : State} (h : s.keyboardPoll = .failed t) : s.memRead kbsrAddr = .failed t := by
  simp [State.memRead, h]

/-- What a successful `MemRead` can do: it gives the word, and only a read of KBSR changes anything. -/
theorem memRead_ok {s t : State} {a v : Word} (h : s.memRead a = .ok v t) :
    v = t.mem.read a ∧ SameButKeyboard s t ∧ (a ≠ kbsrAddr → t = s) := by
  by_cases ha : a = kbsrAddr
  · subst ha
    unfold State.memRead at h
    rw [if_pos rfl] at h
    split at h
    · cases h
    · next hp =>
      cases h
      exact ⟨rfl, keyboardPoll_ok hp, fun hne => absurd rfl hne⟩
  · rw [memRead_of_ne ha] at h
    cases h
    exact ⟨rfl, .refl s, fun _ => rfl⟩

/-- What a failed `MemRead` can do: it is of KBSR, and nothing of the core has changed. -/
theorem memRead_failed {s t : State} {a : Word} (h : s.memRead a = .failed t) :
    a = kbsrAddr ∧ SameCore s t ∧ t.output = s.output ∧
      (s.nextTurn.fails = true ∨ s.takeTurn.nextTurn.fails = true) := by
  by_cases ha : a = kbsrAddr
  · subst ha
    unfold State.memRead at h
    rw [if_pos rfl] at h
    split at h
    · next hp =>
      cases h
      exact ⟨rfl, keyboardPoll_failed hp⟩
    · cases h
  · rw [memRead_of_ne ha] at h
    cases h

/-! ## Fetch (R6, R180) -/

theorem fetch_of_memRead_ok {s t : State} {w : Word} (h : s.memRead s.pc = .ok w t) :
    s.fetch = .ok () { t with ir := w, pc := s.pc + 1 } := by
  simp [State.fetch, h, (memRead_ok h).2.1.pc]

theorem fetch_of_memRead_failed {s t : State} (h : s.memRead s.pc = .failed t) : s.fetch = .failed t := by
  simp [State.fetch, h]

theorem fetch_of_ne {s : State} (h : s.pc ≠ kbsrAddr) :
    s.fetch = .ok () { s with ir := s.mem.read s.pc, pc := s.pc + 1 } :=
  fetch_of_memRead_ok (memRead_of_ne h)

end Sys2Proof.Machine
end

