-- ==== Sys2Proof/Laws/Services.lean ====
section
/-! SUPPORT. What the services of the trap gateway can do: what each leaves alone, how it can end, what it does as long as
the host works, and when it raises HostIOFailure. -/

namespace Sys2Proof.Machine

/-! ## Frames and ends -/

/-- What a service leaves alone (R159): everything but R0, the output stream (which only grows), the run state, the fault
record, the phase and the host's side. -/
structure ServiceFrame (s t : State) : Prop where
  pc     : t.pc = s.pc
  cond   : t.cond = s.cond
  ir     : t.ir = s.ir
  mem    : t.mem = s.mem
  cfg    : t.cfg = s.cfg
  draws  : t.draws = s.draws
  regs   : ∀ r, r ≠ .r0 → t.reg r = s.reg r
  output : s.output <+: t.output

/-- The fault record is as it was. -/
structure SameFault (s t : State) : Prop where
  cause : t.faultCause = s.faultCause
  ir    : t.faultIr = s.faultIr
  addr  : t.faultAddr = s.faultAddr

/-- How a service that may wait in phase `p` can end. -/
inductive ServiceEnd (p : Phase) (s t : State) : Prop where
  | completed (phase : t.phase = .between) (run : t.runState = s.runState) (fault : SameFault s t)
  | faulted (phase : t.phase = .between) (run : t.runState = .halted) (cause : t.faultCause = .hostIOFailure)
      (ir : t.faultIr = s.ir) (addr : t.faultAddr = s.pc - 1) (regs : t.regs = s.regs)
  | stopped (phase : t.phase = .between) (run : t.runState = .halted) (fault : SameFault s t)
      (request : t.stopRequested = true) (regs : t.regs = s.regs)
  | waiting (phase : t.phase = p) (run : t.runState = s.runState) (fault : SameFault s t) (regs : t.regs = s.regs)

theorem SameCore.frame {s t : State} (h : SameCore s t) (ho : s.output <+: t.output) : ServiceFrame s t :=
  ⟨h.pc, h.cond, h.ir, h.mem, h.cfg, h.draws, fun r _ => h.reg r, ho⟩

theorem SameCore.fault {s t : State} (h : SameCore s t) : SameFault s t := ⟨h.faultCause, h.faultIr, h.faultAddr⟩

theorem frame_raise {s t : State} (h : SameCore s t) (ho : s.output <+: t.output) (c : FaultCause) :
    ServiceFrame s (t.raise c) :=
  ⟨h.pc, h.cond, h.ir, h.mem, h.cfg, h.draws, fun r _ => h.reg r, ho⟩

theorem end_raise {s t : State} (p : Phase) (h : SameCore s t) : ServiceEnd p s (t.raise .hostIOFailure) :=
  .faulted rfl rfl rfl h.ir (by simp [h.pc]) h.regs

theorem frame_await {s t : State} (h : SameCore s t) (ho : s.output <+: t.output) (p : Phase) :
    ServiceFrame s (t.await p) :=
  ⟨by simp [h.pc], by simp [h.cond], by simp [h.ir], by simp [h.mem], by simp [h.cfg], by simp [h.draws],
    fun r _ => by simp [State.reg, h.regs], by simpa using ho⟩

theorem end_await {s t : State} (p : Phase) (h : SameCore s t) : ServiceEnd p s (t.await p) := by
  cases hs : t.stopRequested
  · rw [State.await_block t p hs]
    exact .waiting rfl h.runState ⟨h.faultCause, h.faultIr, h.faultAddr⟩ h.regs
  · rw [State.await_stop t p hs]
    exact .stopped rfl rfl ⟨h.faultCause, h.faultIr, h.faultAddr⟩ hs h.regs

theorem frame_complete {s t : State} (h : SameCore s t) (ho : s.output <+: t.output) : ServiceFrame s t.complete :=
  ⟨h.pc, h.cond, h.ir, h.mem, h.cfg, h.draws, fun r _ => h.reg r, ho⟩

theorem end_complete {s t : State} (p : Phase) (h : SameCore s t) : ServiceEnd p s t.complete :=
  .completed rfl h.runState ⟨h.faultCause, h.faultIr, h.faultAddr⟩

theorem frame_result {s t : State} (h : SameCore s t) (ho : s.output <+: t.output) (v : Word) :
    ServiceFrame s (t.setReg .r0 v).complete := by
  refine ⟨h.pc, h.cond, h.ir, h.mem, h.cfg, h.draws, fun r hr => ?_, ho⟩
  have : (t.setReg .r0 v).complete.reg r = (t.setReg .r0 v).reg r := rfl
  rw [this, State.reg_setReg, if_neg hr, h.reg]

theorem end_result {s t : State} (p : Phase) (h : SameCore s t) (v : Word) :
    ServiceEnd p s (t.setReg .r0 v).complete :=
  .completed rfl h.runState ⟨h.faultCause, h.faultIr, h.faultAddr⟩

/-! ## GETC and IN -/

theorem getcRead_spec (s : State) : ServiceFrame s s.getcRead ∧ ServiceEnd .getcRead s s.getcRead := by
  unfold State.getcRead
  split
  · next h =>
    obtain ⟨rfl, -⟩ := hostReadChar_failed h
    exact ⟨frame_raise (sameCore_takeTurn s) ⟨[], by simp⟩ _, end_raise _ (sameCore_takeTurn s)⟩
  · next h =>
    obtain ⟨rfl, -⟩ := hostReadChar_none h
    exact ⟨frame_await (sameCore_takeTurn s) ⟨[], by simp⟩ _, end_await _ (sameCore_takeTurn s)⟩
  · next h =>
    obtain ⟨hc, ho, -⟩ := hostReadChar_some h
    exact ⟨frame_result hc ⟨[], by simp [ho]⟩ _, end_result _ hc _⟩

theorem inRead_spec (s : State) : ServiceFrame s s.inRead ∧ ServiceEnd .inRead s s.inRead := by
  unfold State.inRead
  split
  · next h =>
    obtain ⟨rfl, -⟩ := hostReadChar_failed h
    exact ⟨frame_raise (sameCore_takeTurn s) ⟨[], by simp⟩ _, end_raise _ (sameCore_takeTurn s)⟩
  · next h =>
    obtain ⟨rfl, -⟩ := hostReadChar_none h
    exact ⟨frame_await (sameCore_takeTurn s) ⟨[], by simp⟩ _, end_await _ (sameCore_takeTurn s)⟩
  · next h =>
    obtain ⟨hc, ho, -⟩ := hostReadChar_some h
    split
    · next hw =>
      obtain ⟨hc', ho'⟩ := hostWriteChar_failed hw
      exact ⟨frame_raise (hc.trans hc') ⟨[], by simp [ho, ho']⟩ _, end_raise _ (hc.trans hc')⟩
    · next hw =>
      obtain ⟨hc', ho'⟩ := hostWriteChar_ok hw
      split
      · next hx =>
        obtain ⟨hc2, ho2⟩ := hostFlush_failed hx
        exact ⟨frame_raise ((hc.trans hc').trans hc2) ⟨_, by rw [ho2, ho', ho]⟩ _,
          end_raise _ ((hc.trans hc').trans hc2)⟩
      · next hx =>
        obtain ⟨hc2, ho2⟩ := hostFlush_ok hx
        exact ⟨frame_result ((hc.trans hc').trans hc2) ⟨_, by rw [ho2, ho', ho]⟩ _,
          end_result _ ((hc.trans hc').trans hc2) _⟩

theorem ServiceFrame.after {s t u : State} (h : SameCore s t) (ho : s.output <+: t.output) (h' : ServiceFrame t u) :
    ServiceFrame s u :=
  ⟨h'.pc.trans h.pc, h'.cond.trans h.cond, h'.ir.trans h.ir, h'.mem.trans h.mem, h'.cfg.trans h.cfg,
    h'.draws.trans h.draws, fun r hr => (h'.regs r hr).trans (h.reg r), ho.trans h'.output⟩

theorem SameFault.after {s t u : State} (h : SameCore s t) (h' : SameFault t u) : SameFault s u :=
  ⟨h'.cause.trans h.faultCause, h'.ir.trans h.faultIr, h'.addr.trans h.faultAddr⟩

theorem ServiceEnd.after {p : Phase} {s t u : State} (h : SameCore s t) (h' : ServiceEnd p t u) : ServiceEnd p s u := by
  cases h' with
  | completed hp hr hf => exact .completed hp (hr.trans h.runState) (.after h hf)
  | faulted hp hr hc hi ha hg => exact .faulted hp hr hc (hi.trans h.ir) (by rw [ha, h.pc]) (hg.trans h.regs)
  | stopped hp hr hf hs hg => exact .stopped hp hr (.after h hf) hs (hg.trans h.regs)
  | waiting hp hr hf hg => exact .waiting hp (hr.trans h.runState) (.after h hf) (hg.trans h.regs)

theorem inService_spec (s : State) : ServiceFrame s s.inService ∧ ServiceEnd .inRead s s.inService := by
  unfold State.inService
  split
  · next h =>
    obtain ⟨hc, ho⟩ := hostWriteAll_failed h
    exact ⟨frame_raise hc ho _, end_raise _ hc⟩
  · next h =>
    obtain ⟨hc, ho⟩ := hostWriteAll_ok h
    split
    · next hx =>
      obtain ⟨hc2, ho2⟩ := hostFlush_failed hx
      exact ⟨frame_raise (hc.trans hc2) ⟨_, by rw [ho2, ho]⟩ _, end_raise _ (hc.trans hc2)⟩
    · next u hx =>
      obtain ⟨hc2, ho2⟩ := hostFlush_ok hx
      have hr := inRead_spec u
      exact ⟨hr.1.after (hc.trans hc2) ⟨_, by rw [ho2, ho]⟩, hr.2.after (hc.trans hc2)⟩

/-- IN when its read, its echo and its flush all succeed. -/
theorem inRead_of_ok {s s1 s2 s3 : State} {c : Byte} {u v : Unit} (h1 : s.hostReadChar = .ok (some c) s1)
    (h2 : s1.hostWriteChar c = .ok u s2) (h3 : s2.hostFlush = .ok v s3) :
    s.inRead = (s3.setReg .r0 (zext8 c)).complete := by
  simp only [State.inRead, h1, h2, h3]

theorem getcRead_of_ok {s t : State} {c : Byte} (h : s.hostReadChar = .ok (some c) t) :
    s.getcRead = (t.setReg .r0 (zext8 c)).complete := by
  simp only [State.getcRead, h]

/-- No character: the read waits, unless a stop request is pending. -/
theorem inRead_of_no_input {s t : State} (h : s.hostReadChar = .ok none t) : s.inRead = t.await .inRead := by
  simp only [State.inRead, h]

theorem getcRead_of_no_input {s t : State} (h : s.hostReadChar = .ok none t) : s.getcRead = t.await .getcRead := by
  simp only [State.getcRead, h]

theorem inRead_of_failure {s t : State} (h : s.hostReadChar = .failed t) : s.inRead = t.raise .hostIOFailure := by
  simp only [State.inRead, h]

theorem getcRead_of_failure {s t : State} (h : s.hostReadChar = .failed t) : s.getcRead = t.raise .hostIOFailure := by
  simp only [State.getcRead, h]

/-! ## OUT -/

theorem outService_spec (s : State) :
    ServiceFrame s s.outService ∧ ServiceEnd .between s s.outService ∧ s.outService.regs = s.regs := by
  unfold State.outService
  split
  · next h =>
    obtain ⟨hc, ho⟩ := hostWriteChar_failed h
    exact ⟨frame_raise hc ⟨[], by simp [ho]⟩ _, end_raise _ hc, hc.regs⟩
  · next h =>
    obtain ⟨hc, ho⟩ := hostWriteChar_ok h
    split
    · next hx =>
      obtain ⟨hc2, ho2⟩ := hostFlush_failed hx
      exact ⟨frame_raise (hc.trans hc2) ⟨_, by rw [ho2, ho]⟩ _, end_raise _ (hc.trans hc2), (hc.trans hc2).regs⟩
    · next hx =>
      obtain ⟨hc2, ho2⟩ := hostFlush_ok hx
      exact ⟨frame_complete (hc.trans hc2) ⟨_, by rw [ho2, ho]⟩, end_complete _ (hc.trans hc2), (hc.trans hc2).regs⟩

/-! ## PUTS and PUTSP -/

theorem add_ofNat_succ (a : Word) (k : Nat) : a + BitVec.ofNat 16 (k + 1) = a + 1 + BitVec.ofNat 16 k := by
  apply BitVec.eq_of_toNat_eq
  simp
  omega

theorem scan_ok {chars : Word → List Byte} {n : Nat} {a : Word} {s t : State} {b : Bool}
    (h : s.scan chars n a = .ok b t) :
    SameCore s t ∧ s.output <+: t.output ∧ (b = false → ∀ k < n, s.mem.read (a + BitVec.ofNat 16 k) ≠ 0) := by
  induction n generalizing a s with
  | zero =>
    cases h
    exact ⟨.refl _, ⟨[], by simp⟩, fun _ k hk => absurd hk (Nat.not_lt_zero k)⟩
  | succ n ih =>
    unfold State.scan at h
    split at h
    · cases h
      exact ⟨.refl _, ⟨[], by simp⟩, fun hb => by simp at hb⟩
    · next hz =>
      split at h
      · cases h
      · next hw =>
        obtain ⟨hc, ho⟩ := hostWriteAll_ok hw
        obtain ⟨hc', ho', hn⟩ := ih h
        refine ⟨hc.trans hc', List.IsPrefix.trans ⟨_, ho.symm⟩ ho', fun hb k hk => ?_⟩
        cases k with
        | zero => simpa using hz
        | succ k =>
          have := hn hb k (by omega)
          rw [hc.mem] at this
          rwa [add_ofNat_succ]

theorem scan_failed {chars : Word → List Byte} {n : Nat} {a : Word} {s t : State}
    (h : s.scan chars n a = .failed t) : SameCore s t ∧ s.output <+: t.output := by
  induction n generalizing a s with
  | zero => cases h
  | succ n ih =>
    unfold State.scan at h
    split at h
    · cases h
    · split at h
      · next hw =>
        cases h
        exact hostWriteAll_failed hw
      · next hw =>
        obtain ⟨hc, ho⟩ := hostWriteAll_ok hw
        obtain ⟨hc', ho'⟩ := ih h
        exact ⟨hc.trans hc', List.IsPrefix.trans ⟨_, ho.symm⟩ ho'⟩

/-- The characters of the first `n` words from `a` on. -/
def scanned (chars : Word → List Byte) (m : Memory) (a : Word) (n : Nat) : List Byte :=
  (List.range n).flatMap fun k => chars (m.read (a + BitVec.ofNat 16 k))

theorem scanned_succ (chars : Word → List Byte) (m : Memory) (a : Word) (n : Nat) :
    scanned chars m a (n + 1) = chars (m.read a) ++ scanned chars m (a + 1) n := by
  simp only [scanned, List.range_succ_eq_map, List.flatMap_cons, List.flatMap_map, add_ofNat_succ]
  simp

/-- A scan that writes for every word writes at least as many characters as there are words. -/
theorem le_length_scanned {chars : Word → List Byte} (h : ∀ w, 1 ≤ (chars w).length) (m : Memory) (a : Word) (n : Nat) :
    n ≤ (scanned chars m a n).length := by
  induction n generalizing a with
  | zero => exact Nat.zero_le _
  | succ n ih =>
    rw [scanned_succ, List.length_append]
    have := h (m.read a)
    have := ih (a + 1)
    omega

/-- A scan over words that are not zero writes their characters; it goes on after them if the limit allows. -/
theorem scan_of_nonzero {chars : Word → List Byte} (n m : Nat) {a : Word} {s : State}
    (hz : ∀ k < n, s.mem.read (a + BitVec.ofNat 16 k) ≠ 0) :
    s.scan chars (n + m) a =
      match s.hostWriteAll (scanned chars s.mem a n) with
      | .failed t => .failed t
      | .ok _ t => State.scan chars m (a + BitVec.ofNat 16 n) t := by
  induction n generalizing a s with
  | zero => simp [scanned, State.hostWriteAll]
  | succ n ih =>
    have h0 : s.memPeek a ≠ 0 := by simpa using hz 0 (by omega)
    rw [show n + 1 + m = (n + m) + 1 by omega, State.scan, if_neg h0, scanned_succ, hostWriteAll_append]
    simp only [State.memPeek_eq]
    cases hw : s.hostWriteAll (chars (s.mem.read a)) with
    | failed t => rfl
    | ok u t =>
      have hm : t.mem = s.mem := (hostWriteAll_ok hw).1.mem
      simp only
      rw [ih, hm, add_ofNat_succ]
      intro k hk
      rw [hm, ← add_ofNat_succ]
      exact hz (k + 1) (by omega)

theorem scanService_spec (s : State) (chars : Word → List Byte) (p : Phase) :
    ServiceFrame s (s.scanService chars p) ∧ ServiceEnd p s (s.scanService chars p) ∧
      (s.scanService chars p).regs = s.regs ∧
      ((s.scanService chars p).phase ≠ .between → ∀ a, s.mem.read a ≠ 0) := by
  unfold State.scanService
  split
  · next h =>
    obtain ⟨hc, ho⟩ := scan_failed h
    exact ⟨frame_raise hc ho _, end_raise _ hc, hc.regs, fun hp => absurd rfl hp⟩
  · next h =>
    obtain ⟨hc, ho, hn⟩ := scan_ok h
    refine ⟨⟨hc.pc, hc.cond, hc.ir, hc.mem, hc.cfg, hc.draws, fun r _ => hc.reg r, ho⟩,
      .waiting rfl hc.runState ⟨hc.faultCause, hc.faultIr, hc.faultAddr⟩ hc.regs, hc.regs, fun _ a => ?_⟩
    have := hn rfl (a - s.reg .r0).toNat (a - s.reg .r0).isLt
    rwa [BitVec.ofNat_toNat, BitVec.setWidth_eq, add_sub_cancel] at this
  · next h =>
    obtain ⟨hc, ho, -⟩ := scan_ok h
    split
    · next hx =>
      obtain ⟨hc2, ho2⟩ := hostFlush_failed hx
      exact ⟨frame_raise (hc.trans hc2) (by rw [ho2]; exact ho) _, end_raise _ (hc.trans hc2), (hc.trans hc2).regs,
        fun hp => absurd rfl hp⟩
    · next hx =>
      obtain ⟨hc2, ho2⟩ := hostFlush_ok hx
      exact ⟨frame_complete (hc.trans hc2) (by rw [ho2]; exact ho), end_complete _ (hc.trans hc2),
        (hc.trans hc2).regs, fun hp => absurd rfl hp⟩

/-- Characters written one by one, a flush, and then `next`; a failure ends it. -/
def State.writeThenFlush (s : State) (bs : List Byte) (next : State → State) : State :=
  match s.hostWriteAll bs with
  | .failed t => t.raise .hostIOFailure
  | .ok _ t =>
    match t.hostFlush with
    | .failed u => u.raise .hostIOFailure
    | .ok _ u => next u

theorem writeThenFlush_of_worksFor {s : State} (bs : List Byte) (next : State → State)
    (h : s.HostWorksFor (bs.length + 1)) : s.writeThenFlush bs next = next (s.wrote bs).takeTurn := by
  simp only [State.writeThenFlush, hostWriteAll_of_worksFor bs (h.mono (Nat.le_succ _)),
    hostFlush_of_not_fails (h.after bs.length (wrote_schedule s bs)).nextTurn_fails]

/-- The first operation that fails is a write or the flush; what was written before it stands (R162). -/
theorem writeThenFlush_of_failsFirstAt {s : State} (bs : List Byte) (next : State → State) {k : Nat}
    (hk : k ≤ bs.length) (h : s.FailsFirstAt k) :
    s.writeThenFlush bs next = (s.wrote (bs.take k)).takeTurn.raise .hostIOFailure := by
  rcases Nat.lt_or_eq_of_le hk with hk | rfl
  · simp only [State.writeThenFlush, hostWriteAll_of_failsFirstAt bs hk h]
  · have hf : (s.wrote bs).nextTurn.fails = true := (State.FailsFirstAt.after (k := 0) _ h (wrote_schedule s bs)).2
    simp only [State.writeThenFlush, hostWriteAll_of_worksFor bs h.1, hostFlush_of_fails hf, List.take_length]

/-- The link is no business of the host's. -/
theorem State.HostWorksFor.link {s : State} {n : Nat} (h : s.HostWorksFor n) : s.link.HostWorksFor n :=
  State.HostWorksFor.after (s := s) 0 (by rwa [Nat.zero_add]) rfl

theorem State.FailsFirstAt.link {s : State} {k : Nat} (h : s.FailsFirstAt k) : s.link.FailsFirstAt k :=
  State.FailsFirstAt.after (s := s) 0 (by rwa [Nat.zero_add]) rfl

theorem link_wrote_takeTurn (s : State) (out : List Byte) :
    (s.link.wrote out).takeTurn = s.afterOutput (out.length + 1) out := by
  rw [State.wrote, State.link, State.setReg, takeTurns_regs_update, State.afterOutput, Function.iterate_succ_apply']
  rfl

/-- The same after a link, in the terms of the statements. -/
theorem writeThenFlush_link {s : State} (bs : List Byte) (next : State → State) (h : s.HostWorksFor (bs.length + 1)) :
    s.link.writeThenFlush bs next = next (s.afterOutput (bs.length + 1) bs) := by
  rw [writeThenFlush_of_worksFor bs next h.link, link_wrote_takeTurn]

theorem writeThenFlush_link_failed {s : State} (bs : List Byte) (next : State → State) {k : Nat} (hk : k ≤ bs.length)
    (h : s.FailsFirstAt k) :
    s.link.writeThenFlush bs next = (s.afterOutput (k + 1) (bs.take k)).afterFault .hostIOFailure := by
  rw [writeThenFlush_of_failsFirstAt bs next hk h.link, link_wrote_takeTurn, List.length_take_of_le hk]
  rfl

theorem scanned_putsChars (s : State) (n : Nat) : scanned putsChars s.mem (s.reg .r0) n = s.putsText n :=
  List.map_eq_flatMap.symm

theorem scanned_putspChars (s : State) (n : Nat) : scanned putspChars s.mem (s.reg .r0) n = s.putspText n := rfl

theorem le_length_putspText (s : State) (n : Nat) : n ≤ (s.putspText n).length :=
  le_length_scanned (chars := putspChars) (by simp [putspChars]) s.mem (s.reg .r0) n

@[simp] theorem length_putsText (s : State) (n : Nat) : (s.putsText n).length = n := by simp [State.putsText]

/-- A string that ends with its first zero word, `n` words on. -/
theorem scanService_of_zero {s : State} (chars : Word → List Byte) (p : Phase) {n : Nat}
    (hn : n < 65536) (hz : ∀ k < n, s.mem.read (s.reg .r0 + BitVec.ofNat 16 k) ≠ 0)
    (h0 : s.mem.read (s.reg .r0 + BitVec.ofNat 16 n) = 0) :
    s.scanService chars p = s.writeThenFlush (scanned chars s.mem (s.reg .r0) n) State.complete := by
  have e : lap = n + ((lap - n - 1) + 1) := by unfold lap; omega
  rw [State.scanService, State.writeThenFlush, e, scan_of_nonzero n _ hz]
  cases hw : s.hostWriteAll (scanned chars s.mem (s.reg .r0) n) with
  | failed t => rfl
  | ok u t =>
    have h0 : t.memPeek (s.reg .r0 + BitVec.ofNat 16 n) = 0 := by rw [State.memPeek_eq, (hostWriteAll_ok hw).1.mem, h0]
    have hs : State.scan chars (lap - n - 1 + 1) (s.reg .r0 + BitVec.ofNat 16 n) t = .ok true t := by
      rw [State.scan, if_pos h0]
    show (match State.scan chars (lap - n - 1 + 1) (s.reg .r0 + BitVec.ofNat 16 n) t with
      | .failed s' => s'.raise .hostIOFailure
      | .ok false s' => { s' with phase := p }
      | .ok true s' => State.writeThenFlush s' [] State.complete) = t.writeThenFlush [] State.complete
    rw [hs]

/-- A write that fails in the first `n` words, none of which is zero. -/
theorem scanService_of_failsFirstAt {s : State} (chars : Word → List Byte) (p : Phase) {n k : Nat} (hn : n ≤ 65536)
    (hz : ∀ k < n, s.mem.read (s.reg .r0 + BitVec.ofNat 16 k) ≠ 0)
    (hk : k < (scanned chars s.mem (s.reg .r0) n).length) (h : s.FailsFirstAt k) :
    s.scanService chars p =
      (s.wrote ((scanned chars s.mem (s.reg .r0) n).take k)).takeTurn.raise .hostIOFailure := by
  have e : lap = n + (lap - n) := by unfold lap; omega
  rw [State.scanService, e, scan_of_nonzero n _ hz]
  simp only [hostWriteAll_of_failsFirstAt _ hk h]

/-- A lap over a memory without a zero word. -/
theorem scanService_of_no_zero {s : State} (chars : Word → List Byte) (p : Phase) (hr : s.HostReliable)
    (hz : ∀ a, s.mem.read a ≠ 0) :
    s.scanService chars p = { s.wrote (scanned chars s.mem (s.reg .r0) lap) with phase := p } := by
  have e := scan_of_nonzero (chars := chars) lap 0 (s := s) fun k _ => hz (s.reg .r0 + BitVec.ofNat 16 k)
  rw [Nat.add_zero] at e
  simp only [State.scanService, e, hostWriteAll_of_worksFor _ (hr.worksFor _), State.scan]

/-! ## HALT -/

theorem haltService_spec (s : State) :
    ServiceFrame s s.haltService ∧ s.haltService.regs = s.regs ∧ s.haltService.runState = .halted ∧
      s.haltService.phase = .between ∧
      (SameFault s s.haltService ∨ (s.haltService.faultCause = .hostIOFailure ∧ s.haltService.faultIr = s.ir ∧
        s.haltService.faultAddr = s.pc - 1)) := by
  unfold State.haltService
  split
  · next h =>
    obtain ⟨hc, ho⟩ := hostWriteAll_failed h
    exact ⟨frame_raise hc ho _, hc.regs, rfl, rfl, .inr ⟨rfl, hc.ir, by simp [hc.pc]⟩⟩
  · next h =>
    obtain ⟨hc, ho⟩ := hostWriteAll_ok h
    split
    · next hx =>
      obtain ⟨hc2, ho2⟩ := hostFlush_failed hx
      have hc := hc.trans hc2
      exact ⟨frame_raise hc ⟨_, by rw [ho2, ho]⟩ _, hc.regs, rfl, rfl, .inr ⟨rfl, hc.ir, by simp [hc.pc]⟩⟩
    · next hx =>
      obtain ⟨hc2, ho2⟩ := hostFlush_ok hx
      have hc := hc.trans hc2
      exact ⟨⟨hc.pc, hc.cond, hc.ir, hc.mem, hc.cfg, hc.draws, fun r _ => hc.reg r, ⟨_, by rw [← ho, ← ho2]; rfl⟩⟩,
        hc.regs, rfl, rfl, .inl ⟨hc.faultCause, hc.faultIr, hc.faultAddr⟩⟩

theorem haltService_eq (s : State) :
    s.haltService = s.writeThenFlush s.cfg.haltNotice fun t => { t.complete with runState := .halted } := rfl

theorem inService_eq (s : State) : s.inService = s.writeThenFlush s.cfg.inPrompt State.inRead := rfl

theorem outService_eq (s : State) : s.outService = s.writeThenFlush [lowByte (s.reg .r0)] State.complete := by
  unfold State.outService State.writeThenFlush State.hostWriteAll
  cases s.hostWriteChar (lowByte (s.reg .r0)) <;> rfl

/-! ## When a service raises HostIOFailure (R162, R185) -/

/-- `failed` says whether the host failed one of the service's operations: if so the fault is HostIOFailure, and if not it is
that only for a read at the end of the input. -/
structure FailsAsTheHost (s t : State) (failed : Bool) : Prop where
  turns  : TurnsTaken s t failed
  raises : failed = true → t.faultCause = .hostIOFailure
  only   : t.faultCause = .hostIOFailure →
    s.faultCause = .hostIOFailure ∨ failed = true ∨ (t.input = [] ∧ t.inputEnded = true)

theorem failsAsTheHost_raise {s t : State} (h : TurnsTaken s t true) :
    FailsAsTheHost s (t.raise .hostIOFailure) true := ⟨h, fun _ => rfl, fun _ => .inr (.inl rfl)⟩

theorem failsAsTheHost_kept {s t u : State} (h : TurnsTaken s t false) (hu : u.schedule = t.schedule)
    (hf : u.faultCause = s.faultCause) : FailsAsTheHost s u false :=
  ⟨h.trans (.none hu), nofun, fun hc => .inl (hf ▸ hc)⟩

theorem FailsAsTheHost.after {s t u : State} {b : Bool} (h : TurnsTaken s t false) (hf : t.faultCause = s.faultCause)
    (h' : FailsAsTheHost t u b) : FailsAsTheHost s u b :=
  ⟨by simpa using h.trans h'.turns, h'.raises, fun hc => hf ▸ h'.only hc⟩

theorem failsAsTheHost_readFailed {s t : State} (h : s.hostReadChar = .failed t) :
    ∃ b, FailsAsTheHost s (t.raise .hostIOFailure) b := by
  rcases hostReadChar_turns_failed h with ht | ⟨ht, hi⟩
  · exact ⟨true, failsAsTheHost_raise ht⟩
  · exact ⟨false, ht, nofun, fun _ => .inr (.inr hi)⟩

theorem failsAsTheHost_writeThenFlush {s : State} (bs : List Byte) (next : State → State)
    (h : ∀ t, ∃ b, FailsAsTheHost t (next t) b) : ∃ b, FailsAsTheHost s (s.writeThenFlush bs next) b := by
  unfold State.writeThenFlush
  split
  · next hw => exact ⟨true, failsAsTheHost_raise (hostWriteAll_turns_failed hw)⟩
  · next hw =>
    split
    · next hx => exact ⟨true, failsAsTheHost_raise ((hostWriteAll_turns_ok hw).trans (hostFlush_turns_failed hx))⟩
    · next u hx =>
      obtain ⟨b, hb⟩ := h u
      exact ⟨b, hb.after ((hostWriteAll_turns_ok hw).trans (hostFlush_turns_ok hx))
        ((hostWriteAll_ok hw).1.trans (hostFlush_ok hx).1).faultCause⟩

theorem getcRead_failsAsTheHost (s : State) : ∃ b, FailsAsTheHost s s.getcRead b := by
  unfold State.getcRead
  split
  · next h => exact failsAsTheHost_readFailed h
  · next h =>
    exact ⟨false, failsAsTheHost_kept (hostReadChar_turns_ok h) (by simp)
      (by rw [(hostReadChar_none h).1]; simp)⟩
  · next h => exact ⟨false, failsAsTheHost_kept (hostReadChar_turns_ok h) rfl (hostReadChar_some h).1.faultCause⟩

theorem inRead_failsAsTheHost (s : State) : ∃ b, FailsAsTheHost s s.inRead b := by
  unfold State.inRead
  split
  · next h => exact failsAsTheHost_readFailed h
  · next h =>
    exact ⟨false, failsAsTheHost_kept (hostReadChar_turns_ok h) (by simp)
      (by rw [(hostReadChar_none h).1]; simp)⟩
  · next h =>
    have hr := hostReadChar_turns_ok h
    split
    · next hw => exact ⟨true, failsAsTheHost_raise (hr.trans (hostWriteChar_turns_failed hw))⟩
    · next hw =>
      have hr := hr.trans (hostWriteChar_turns_ok hw)
      split
      · next hx => exact ⟨true, failsAsTheHost_raise (hr.trans (hostFlush_turns_failed hx))⟩
      · next hx =>
        exact ⟨false, failsAsTheHost_kept (hr.trans (hostFlush_turns_ok hx)) rfl
          (((hostReadChar_some h).1.trans (hostWriteChar_ok hw).1).trans (hostFlush_ok hx).1).faultCause⟩

theorem scan_turns {chars : Word → List Byte} {n : Nat} {a : Word} {s : State} :
    (∀ b t, s.scan chars n a = .ok b t → TurnsTaken s t false) ∧
      (∀ t, s.scan chars n a = .failed t → TurnsTaken s t true) := by
  induction n generalizing a s with
  | zero =>
    refine ⟨fun b t h => ?_, fun t h => by cases h⟩
    cases h
    exact .none rfl
  | succ n ih =>
    unfold State.scan
    split
    · refine ⟨fun b t h => ?_, fun t h => by cases h⟩
      cases h
      exact .none rfl
    · split
      · next hw =>
        refine ⟨nofun, fun t h => ?_⟩
        cases h
        exact hostWriteAll_turns_failed hw
      · next hw =>
        exact ⟨fun b t h => (hostWriteAll_turns_ok hw).trans (ih.1 b t h),
          fun t h => (hostWriteAll_turns_ok hw).trans (ih.2 t h)⟩

theorem scanService_failsAsTheHost (s : State) (chars : Word → List Byte) (p : Phase) :
    ∃ b, FailsAsTheHost s (s.scanService chars p) b := by
  unfold State.scanService
  split
  · next h => exact ⟨true, failsAsTheHost_raise (scan_turns.2 _ h)⟩
  · next h => exact ⟨false, failsAsTheHost_kept (scan_turns.1 _ _ h) rfl (scan_ok h).1.faultCause⟩
  · next h =>
    have ht := scan_turns.1 _ _ h
    split
    · next hx => exact ⟨true, failsAsTheHost_raise (ht.trans (hostFlush_turns_failed hx))⟩
    · next hx =>
      exact ⟨false, failsAsTheHost_kept (ht.trans (hostFlush_turns_ok hx)) rfl
        ((scan_ok h).1.trans (hostFlush_ok hx).1).faultCause⟩

theorem complete_failsAsTheHost (s : State) : ∃ b, FailsAsTheHost s s.complete b :=
  ⟨false, failsAsTheHost_kept (.none rfl) rfl rfl⟩

theorem outService_failsAsTheHost (s : State) : ∃ b, FailsAsTheHost s s.outService b := by
  rw [outService_eq]
  exact failsAsTheHost_writeThenFlush _ _ complete_failsAsTheHost

theorem inService_failsAsTheHost (s : State) : ∃ b, FailsAsTheHost s s.inService b :=
  failsAsTheHost_writeThenFlush _ _ inRead_failsAsTheHost

theorem haltService_failsAsTheHost (s : State) : ∃ b, FailsAsTheHost s s.haltService b :=
  failsAsTheHost_writeThenFlush _ _ fun _ => ⟨false, failsAsTheHost_kept (.none rfl) rfl rfl⟩

end Sys2Proof.Machine
end

