-- ==== Sys2Proof/Laws/Exec.lean ====
section
/-! SUPPORT. What executing an instruction can do, once per shared operation: loads, the trap gateway, and one inversion of
`exec` for the instructions that call neither the host nor memory. -/

namespace Sys2Proof.Machine

/-! ## Numbers -/

/-- Sign extension and addition agree with the number the offset stands for (R16, R25). -/
theorem add_sext {n : Nat} (a : Word) (off : BitVec n) (h : n ≤ 16) : a + sext off = displaced a off := by
  apply BitVec.eq_of_toInt_eq
  simp only [sext, displaced, BitVec.toInt_add, BitVec.toInt_ofInt, BitVec.toInt_signExtend_of_le h]
  have : (a.toInt : Int).bmod (2 ^ 16) = ((a.toNat : Int)).bmod (2 ^ 16) := by
    rw [BitVec.toInt_eq_toNat_bmod, Int.bmod_bmod]
  rw [← Int.bmod_add_bmod, this, Int.bmod_add_bmod]

theorem sext_eq_ofInt {n : Nat} (v : BitVec n) (h : n ≤ 16) : sext v = BitVec.ofInt 16 v.toInt := by
  apply BitVec.eq_of_toInt_eq
  rw [sext, BitVec.toInt_signExtend_of_le h, BitVec.toInt_ofInt]
  have := (v.signExtend 16).toInt_bmod_cancel
  rwa [BitVec.toInt_signExtend_of_le h, eq_comm] at this

theorem zext8_eq (c : Byte) : zext8 c = BitVec.ofNat 16 c.toNat := by
  apply BitVec.eq_of_toNat_eq
  simp [zext8]

theorem lowByte_eq (w : Word) : lowByte w = w.setWidth 8 := by
  apply BitVec.eq_of_toNat_eq
  simp [lowByte, BitVec.extractLsb'_toNat]

theorem not_eq (w : Word) : ~~~w = 0xFFFF - w := by
  apply BitVec.eq_of_toNat_eq
  have := w.isLt
  rw [BitVec.toNat_not, BitVec.toNat_sub, show (0xFFFF : Word).toNat = 65535 from rfl]
  omega

theorem flagOf_eq (v : Word) :
    flagOf v = if v.toNat = 0 then .zero else if 0x8000 ≤ v.toNat then .negative else .positive := by
  have h0 : v = 0 ↔ v.toNat = 0 := ⟨fun h => by simp [h], fun h => BitVec.eq_of_toNat_eq (by simpa using h)⟩
  have h1 : v.getLsbD 15 = true ↔ 0x8000 ≤ v.toNat := by
    have := BitVec.msb_eq_decide v
    simp only [BitVec.msb_eq_getLsbD_last] at this
    simpa using congrArg (· = true) this
  simp only [flagOf, h0, h1]

/-- The end of a flag-setting instruction, as statements write it. -/
theorem State.setRegCc_eq_afterResult (s : State) (r : Reg) (v : Word) : s.setRegCc r v = s.afterResult r v := by
  rw [State.setRegCc_eq, State.afterResult, flagOf_eq]

theorem State.raise_eq_afterFault (s : State) (c : FaultCause) : s.raise c = s.afterFault c := rfl

/-! ## Loads -/

/-- How a load ends (R135). -/
theorem loadInto_cases (s : State) (dr : Reg) (a : Word) :
    (∃ v t, s.memRead a = .ok v t ∧ s.loadInto dr a = t.setRegCc dr v) ∨
    (∃ t, s.memRead a = .failed t ∧ s.loadInto dr a = t.raise .hostIOFailure) := by
  unfold State.loadInto
  split
  · next h => exact .inr ⟨_, h, rfl⟩
  · next h => exact .inl ⟨_, _, h, rfl⟩

theorem loadInto_of_ok {s t : State} {a v : Word} (dr : Reg) (h : s.memRead a = .ok v t) :
    s.loadInto dr a = t.setRegCc dr v := by
  simp [State.loadInto, h]

theorem loadInto_of_failed {s t : State} {a : Word} (dr : Reg) (h : s.memRead a = .failed t) :
    s.loadInto dr a = t.raise .hostIOFailure := by
  simp [State.loadInto, h]

/-! ## The trap gateway -/

/-- How the trap gateway can end, for any vector, and what it leaves alone (R151, R159). -/
inductive TrapEnd (s t : State) : Prop where
  /-- A service that may wait ended in one of its ways. -/
  | service (p : Phase) (waits : p ≠ .between) (ends : ServiceEnd p s t)
  /-- HALT without a failure. -/
  | ended (run : t.runState = .halted) (phase : t.phase = .between) (regs : t.regs = s.regs) (fault : SameFault s t)
  /-- A failure in HALT, or an undefined vector. -/
  | faulted (run : t.runState = .halted) (phase : t.phase = .between) (regs : t.regs = s.regs)
      (cause : t.faultCause = .hostIOFailure ∨ t.faultCause = .undefinedTrapVector) (ir : t.faultIr = s.ir)
      (addr : t.faultAddr = s.pc - 1)

theorem haltService_end (s : State) : TrapEnd s s.haltService := by
  obtain ⟨-, hg, hr, hp, h⟩ := haltService_spec s
  rcases h with h | ⟨hc, hi, ha⟩
  · exact .ended hr hp hg h
  · exact .faulted hr hp hg (.inl hc) hi ha

theorem outService_end (s : State) : TrapEnd s s.outService := by
  obtain ⟨-, h, -⟩ := outService_spec s
  refine .service .getcRead (by simp) ?_
  cases h with
  | completed hp hr hf => exact .completed hp hr hf
  | faulted hp hr hc hi ha hg => exact .faulted hp hr hc hi ha hg
  | stopped hp hr hf hs hg => exact .stopped hp hr hf hs hg
  | waiting hp hr hf hg => exact .completed hp hr hf

theorem trapDispatch_spec (s : State) (v : BitVec 8) :
    ServiceFrame s (s.trapDispatch v) ∧ TrapEnd s (s.trapDispatch v) ∧
      (v ≠ 0x20 → v ≠ 0x23 → (s.trapDispatch v).regs = s.regs) := by
  unfold State.trapDispatch
  split
  · next h =>
    exact ⟨(getcRead_spec s).1, .service _ (by simp) (getcRead_spec s).2,
      fun hv => absurd (BitVec.eq_of_toNat_eq h) hv⟩
  · have h := outService_spec s
    exact ⟨h.1, outService_end s, fun _ _ => h.2.2⟩
  · have h := scanService_spec s putsChars .putsScan
    exact ⟨h.1, .service _ (by simp) h.2.1, fun _ _ => h.2.2.1⟩
  · next h =>
    exact ⟨(inService_spec s).1, .service _ (by simp) (inService_spec s).2,
      fun _ hv => absurd (BitVec.eq_of_toNat_eq h) hv⟩
  · have h := scanService_spec s putspChars .putspScan
    exact ⟨h.1, .service _ (by simp) h.2.1, fun _ _ => h.2.2.1⟩
  · have h := haltService_spec s
    exact ⟨h.1, haltService_end s, fun _ _ => h.2.1⟩
  · exact ⟨frame_raise (.refl s) ⟨[], by simp⟩ _, .faulted rfl rfl rfl (.inr rfl) rfl rfl, fun _ _ => rfl⟩

theorem trapDispatch_failsAsTheHost (s : State) (v : BitVec 8) : ∃ b, FailsAsTheHost s (s.trapDispatch v) b := by
  unfold State.trapDispatch
  split
  · exact getcRead_failsAsTheHost s
  · exact outService_failsAsTheHost s
  · exact scanService_failsAsTheHost s _ _
  · exact inService_failsAsTheHost s
  · exact scanService_failsAsTheHost s _ _
  · exact haltService_failsAsTheHost s
  · exact ⟨false, .none rfl, nofun, nofun⟩

/-- TRAP and the services all are the gateway with some vector, after the link (R150). -/
theorem exec_of_isTrap {i : Instr} (h : i.isTrap = true) (s : State) :
    ∃ v, exec i s = .next (s.link.trapDispatch v) ∧
      (i.writesReg .r0 = false → v ≠ 0x20 ∧ v ≠ 0x23) ∧
      (i.wellFormed = true → (v = 0x20 ↔ i = .getc) ∧ (v = 0x23 ↔ i = .inChar)) := by
  cases i with
  | trap v =>
    refine ⟨v, rfl, fun hw => by simpa [Instr.writesReg] using hw,
      fun hw => ⟨⟨fun e => ?_, nofun⟩, ⟨fun e => ?_, nofun⟩⟩⟩ <;>
    · subst e
      simp [Instr.wellFormed, definedVector] at hw
  | getc => exact ⟨0x20, rfl, by simp [Instr.writesReg], by simp⟩
  | out => exact ⟨0x21, rfl, by simp, by simp⟩
  | puts => exact ⟨0x22, rfl, by simp, by simp⟩
  | inChar => exact ⟨0x23, rfl, by simp [Instr.writesReg], by simp⟩
  | putsp => exact ⟨0x24, rfl, by simp, by simp⟩
  | halt => exact ⟨0x25, rfl, by simp, by simp⟩
  | _ => simp [Instr.isTrap] at h

/-- What TRAP and the services can do. -/
theorem exec_trap_spec {i : Instr} {s t : State} (hi : i.isTrap = true) (h : exec i s = .next t) :
    ServiceFrame s.link t ∧ TrapEnd s.link t ∧ (i.writesReg .r0 = false → t.regs = s.link.regs) := by
  obtain ⟨v, e, hv, -⟩ := exec_of_isTrap hi s
  rw [e] at h
  cases h
  have := trapDispatch_spec s.link v
  exact ⟨this.1, this.2.1, fun hw => this.2.2 (hv hw).1 (hv hw).2⟩

/-- When TRAP and the services raise HostIOFailure (R162, R185). -/
theorem exec_trap_failsAsTheHost {i : Instr} {s t : State} (hi : i.isTrap = true) (h : exec i s = .next t) :
    ∃ b, FailsAsTheHost s.link t b := by
  obtain ⟨v, e, -⟩ := exec_of_isTrap hi s
  rw [e] at h
  cases h
  exact trapDispatch_failsAsTheHost s.link v

/-! ## The other instructions -/

/-- Everything an instruction that is no TRAP can do: jump, link and jump, give a result to a register and the flags, store a
word, or raise a fatal error; `t` is the state after its reads. -/
inductive PlainEffect (i : Instr) (s : State) : State → Prop where
  | jumped (p : Word) (writesPc : i.writesPc = true ∨ p = s.pc) (flag : i.flagReg = none)
      (stores : storeAddr i s = none) : PlainEffect i s { s with pc := p }
  | linked (p : Word) (writesPc : i.writesPc = true) (writes : i.writesReg .r7 = true) (flag : i.flagReg = none)
      (stores : storeAddr i s = none) : PlainEffect i s { s.link with pc := p }
  | result (dr : Reg) (v : Word) (t : State) (reads : SameButKeyboard s t) (quiet : polls i s = false → t = s)
      (writes : i.writesReg dr = true) (flag : i.flagReg = some dr) (stores : storeAddr i s = none) :
      PlainEffect i s (t.setRegCc dr v)
  | stored (a v : Word) (t : State) (reads : SameButKeyboard s t) (quiet : polls i s = false → t = s)
      (flag : i.flagReg = none) (stores : storeAddr i s = some a) : PlainEffect i s (t.memWrite a v)
  | undefined (op : i = .rti ∨ i = .res) : PlainEffect i s (s.raise .undefinedOpcode)
  | failed (t : State) (reads : SameButKeyboard s t) (polled : polls i s = true) (stores : storeAddr i s = none) :
      PlainEffect i s (t.raise .hostIOFailure)

theorem loadInto_effect {i : Instr} {s : State} {dr : Reg} (a : Word) (hp : polls i s = (a == kbsrAddr))
    (hw : i.writesReg dr = true) (hf : i.flagReg = some dr) (hs : storeAddr i s = none) :
    PlainEffect i s (s.loadInto dr a) := by
  rcases loadInto_cases s dr a with ⟨v, t, h, e⟩ | ⟨t, h, e⟩ <;> rw [e]
  · obtain ⟨-, h1, h2⟩ := memRead_ok h
    exact .result dr v t h1 (fun q => h2 (by rw [hp] at q; simpa using q)) hw hf hs
  · obtain ⟨h0, h1, ho, -⟩ := memRead_failed h
    exact .failed t (h1.sameButKeyboard ho) (by simp [hp, h0]) hs

theorem execLdi_effect {s t : State} {dr : Reg} {off : BitVec 9} (h : execLdi dr off s = .next t) :
    PlainEffect (.ldi dr off) s t := by
  unfold execLdi at h
  split at h
  · next hm =>
    cases h
    obtain ⟨h0, h1, ho, -⟩ := memRead_failed hm
    exact .failed _ (h1.sameButKeyboard ho) (by simp [polls, h0]) rfl
  · next p u hm =>
    cases h
    obtain ⟨hv, h1, h2⟩ := memRead_ok hm
    rcases loadInto_cases u dr p with ⟨v, t, h, e⟩ | ⟨t, h, e⟩ <;> rw [e]
    · obtain ⟨-, h3, h4⟩ := memRead_ok h
      refine .result dr v t (h1.trans h3) (fun hq => ?_) (by simp [Instr.writesReg]) rfl rfl
      simp only [polls, Bool.or_eq_false_iff, beq_eq_false_iff_ne] at hq
      obtain rfl := h2 hq.1
      exact h4 (hv ▸ hq.2)
    · obtain ⟨h0, h3, ho, -⟩ := memRead_failed h
      refine .failed t (h1.trans (h3.sameButKeyboard ho)) ?_ rfl
      by_cases hk : s.pcRel9 off = kbsrAddr
      · simp [polls, hk]
      · obtain rfl := h2 hk
        simp [polls, ← hv, h0]

theorem execSti_effect {s t : State} {sr : Reg} {off : BitVec 9} (h : execSti sr off s = .next t) :
    PlainEffect (.sti sr off) s t := by
  unfold execSti at h
  split at h
  · next hm =>
    cases h
    obtain ⟨h0, h1, ho, -⟩ := memRead_failed hm
    exact .failed _ (h1.sameButKeyboard ho) (by simp [polls, h0]) (by simp [storeAddr, hm])
  · next hm =>
    cases h
    obtain ⟨-, h1, h2⟩ := memRead_ok hm
    exact .stored _ _ _ h1 (fun hq => h2 (by simpa [polls] using hq)) rfl (by simp [storeAddr, hm])

/-- What the instructions that are no TRAP can do. -/
theorem exec_plain_spec {i : Instr} {s t : State} (hi : i.isTrap = false) (h : exec i s = .next t) :
    PlainEffect i s t := by
  have result (dr : Reg) (v : Word) (hw : i.writesReg dr = true) (hf : i.flagReg = some dr)
      (hs : storeAddr i s = none) : PlainEffect i s (s.setRegCc dr v) :=
    .result dr v s (.refl s) (fun _ => rfl) hw hf hs
  cases i <;> simp only [Instr.isTrap, Bool.true_eq_false] at hi <;> simp only [exec] at h
  case br n z p off =>
    unfold execBr at h
    split at h <;> cases h
    · exact .jumped _ (.inl rfl) rfl rfl
    · exact .jumped s.pc (.inr rfl) rfl rfl
  case jmp => cases h; exact .jumped _ (.inl rfl) rfl rfl
  case jsr => cases h; exact .linked _ rfl rfl rfl rfl
  case jsrr => cases h; exact .linked _ rfl rfl rfl rfl
  case addReg => cases h; exact result _ _ (by simp [Instr.writesReg]) rfl rfl
  case addImm => cases h; exact result _ _ (by simp [Instr.writesReg]) rfl rfl
  case andReg => cases h; exact result _ _ (by simp [Instr.writesReg]) rfl rfl
  case andImm => cases h; exact result _ _ (by simp [Instr.writesReg]) rfl rfl
  case not => cases h; exact result _ _ (by simp [Instr.writesReg]) rfl rfl
  case lea => cases h; exact result _ _ (by simp [Instr.writesReg]) rfl rfl
  case ld => cases h; exact loadInto_effect _ rfl (by simp [Instr.writesReg]) rfl rfl
  case ldr => cases h; exact loadInto_effect _ rfl (by simp [Instr.writesReg]) rfl rfl
  case ldi => exact execLdi_effect h
  case st => cases h; exact .stored _ _ s (.refl s) (fun _ => rfl) rfl rfl
  case str => cases h; exact .stored _ _ s (.refl s) (fun _ => rfl) rfl rfl
  case sti => exact execSti_effect h
  case rti => cases h; exact .undefined (.inl rfl)
  case res => cases h; exact .undefined (.inr rfl)

end Sys2Proof.Machine
end

