-- ==== Sys2Proof/Laws/PerInstr.lean ====
section
/-! SUPPORT. The per-instruction family `OpcodeField`: the encoding of every instruction has the opcode of its table row in
`ir[15:12]` (R84). -/

namespace Sys2Proof.Laws.OpcodeField

/-- The opcode of an instruction in the opcode map of R84. -/
def opcode : Instr → BitVec 4
  | .br _ _ _ _ => 0
  | .addReg _ _ _ => 1
  | .addImm _ _ _ => 1
  | .ld _ _ => 2
  | .st _ _ => 3
  | .jsr _ => 4
  | .jsrr _ => 4
  | .andReg _ _ _ => 5
  | .andImm _ _ _ => 5
  | .ldr _ _ _ => 6
  | .str _ _ _ => 7
  | .rti => 8
  | .not _ _ => 9
  | .ldi _ _ => 10
  | .sti _ _ => 11
  | .jmp _ => 12
  | .res => 13
  | .lea _ _ => 14
  | .trap _ => 15
  | .getc => 15
  | .out => 15
  | .puts => 15
  | .inChar => 15
  | .putsp => 15
  | .halt => 15

/-- The opcode field of the encoding is the instruction's opcode. -/
def Statement (i : Instr) : Prop := fieldOpcode (encodeWord i) = opcode i

theorem br (n z p : Bool) (off : BitVec 9) : Statement (.br n z p off) := (formatBR_fields n z p off).1

theorem addReg (d a b : Reg) : Statement (.addReg d a b) := (formatRRR_fields 1 d a 0 b).1

theorem addImm (d a : Reg) (i : BitVec 5) : Statement (.addImm d a i) := (formatRRI_fields 1 d a i).1

theorem ld (d : Reg) (i : BitVec 9) : Statement (.ld d i) := (formatRP9_fields 2 d i).1

theorem st (d : Reg) (i : BitVec 9) : Statement (.st d i) := (formatRP9_fields 3 d i).1

theorem jsr (i : BitVec 11) : Statement (.jsr i) := (formatJ11_fields i).1

theorem jsrr (a : Reg) : Statement (.jsrr a) := (formatJB_fields 0 a 0).1

theorem andReg (d a b : Reg) : Statement (.andReg d a b) := (formatRRR_fields 5 d a 0 b).1

theorem andImm (d a : Reg) (i : BitVec 5) : Statement (.andImm d a i) := (formatRRI_fields 5 d a i).1

theorem ldr (d a : Reg) (i : BitVec 6) : Statement (.ldr d a i) := (formatRB6_fields 6 d a i).1

theorem str (d a : Reg) (i : BitVec 6) : Statement (.str d a i) := (formatRB6_fields 7 d a i).1

theorem rti : Statement .rti := formatX_fields 8 0

theorem not (d a : Reg) : Statement (.not d a) := (formatRR_fields d a 0x3F).1

theorem ldi (d : Reg) (i : BitVec 9) : Statement (.ldi d i) := (formatRP9_fields 10 d i).1

theorem sti (d : Reg) (i : BitVec 9) : Statement (.sti d i) := (formatRP9_fields 11 d i).1

theorem jmp (a : Reg) : Statement (.jmp a) := (formatB_fields 0 a 0).1

theorem res : Statement .res := formatX_fields 13 0

theorem lea (d : Reg) (i : BitVec 9) : Statement (.lea d i) := (formatRP9_fields 14 d i).1

theorem trap (v : BitVec 8) : Statement (.trap v) := (formatT_fields 0 v).1

theorem getc : Statement .getc := (formatT_fields 0 0x20).1

theorem out : Statement .out := (formatT_fields 0 0x21).1

theorem puts : Statement .puts := (formatT_fields 0 0x22).1

theorem inChar : Statement .inChar := (formatT_fields 0 0x23).1

theorem putsp : Statement .putsp := (formatT_fields 0 0x24).1

theorem halt : Statement .halt := (formatT_fields 0 0x25).1

end Sys2Proof.Laws.OpcodeField
end

