-- ==== Sys2Proof/Laws/Step.lean ====
section
/-! SUPPORT. What one step of a running machine can be, and what going on with a waiting step can do. -/

namespace Sys2Proof.Machine

theorem step_of_halted {s : State} (h : s.runState = .halted) : step s = .next s := by
  unfold step
  rw [h]

theorem step_of_running {s : State} (h : s.runState = .running) : step s = runningStep s := by
  unfold step
  rw [h]

/-- A waiting step goes on. -/
theorem runningStep_of_waiting {s : State} (h : s.phase ≠ .between) : runningStep s = .next s.resume := by
  unfold runningStep
  split <;> first | rfl | contradiction

theorem runningStep_of_stop {s : State} (hp : s.phase = .between) (hs : s.takeTurn.stopRequested = true) :
    runningStep s = .next s.takeTurn.stop := by
  unfold runningStep startStep
  rw [hp]
  exact if_pos hs

theorem runningStep_of_between {s : State} (hp : s.phase = .between) (hs : s.takeTurn.stopRequested = false) :
    runningStep s = fetchAndExec s.takeTurn := by
  unfold runningStep startStep
  rw [hp, hs]
  rfl

/-- How a step of a running machine goes (R180, R188): a stop request honoured; a fetch that fails; a fetch and the
instruction fetched; or a waiting step going on. -/
theorem step_cases {s t : State} (hr : s.runState = .running) (h : step s = .next t) :
    (s.phase = .between ∧ s.takeTurn.stopRequested = true ∧ t = s.takeTurn.stop) ∨
    (s.phase = .between ∧ s.takeTurn.stopRequested = false ∧
      ∃ u, s.takeTurn.memRead s.pc = .failed u ∧ t = u.raiseAtFetch) ∨
    (s.phase = .between ∧ s.takeTurn.stopRequested = false ∧
      ∃ w u, s.takeTurn.memRead s.pc = .ok w u ∧ exec (decodeWord w) { u with ir := w, pc := s.pc + 1 } = .next t) ∨
    (s.phase ≠ .between ∧ t = s.resume) := by
  rw [step_of_running hr] at h
  by_cases hp : s.phase = .between
  · cases hs : s.takeTurn.stopRequested
    · rw [runningStep_of_between hp hs, fetchAndExec] at h
      cases hm : s.takeTurn.memRead s.takeTurn.pc with
      | failed u =>
        rw [fetch_of_memRead_failed hm] at h
        exact .inr (.inl ⟨hp, rfl, u, hm, (Host.Outcome.next.inj h).symm⟩)
      | ok w u =>
        rw [fetch_of_memRead_ok hm] at h
        exact .inr (.inr (.inl ⟨hp, rfl, w, u, hm, h⟩))
    · rw [runningStep_of_stop hp hs] at h
      exact .inl ⟨hp, rfl, (Host.Outcome.next.inj h).symm⟩
  · rw [runningStep_of_waiting hp] at h
    exact .inr (.inr (.inr ⟨hp, (Host.Outcome.next.inj h).symm⟩))

/-- Where a service can be left waiting: in its own phase only. -/
theorem ServiceEnd.phase_cases {p : Phase} {s t : State} (h : ServiceEnd p s t) : t.phase = .between ∨ t.phase = p := by
  cases h with
  | completed hp => exact .inl hp
  | faulted hp => exact .inl hp
  | stopped hp => exact .inl hp
  | waiting hp => exact .inr hp

/-- What going on with a waiting step can do (R161, R198): it ends or waits on as its service can; a scan waits on only over
a memory without a zero word. -/
theorem resume_spec {s : State} (h : s.phase ≠ .between) :
    ServiceFrame s s.resume ∧ ServiceEnd s.phase s s.resume ∧
      (s.resume.phase = .putsScan ∨ s.resume.phase = .putspScan → ∀ a, s.mem.read a ≠ 0) := by
  unfold State.resume
  split <;> rename_i hp
  · exact absurd hp h
  · have hs := getcRead_spec s
    refine ⟨hs.1, hp ▸ hs.2, fun hq => ?_⟩
    rcases hs.2.phase_cases with e | e <;> rw [e] at hq <;> simp at hq
  · have hs := inRead_spec s
    refine ⟨hs.1, hp ▸ hs.2, fun hq => ?_⟩
    rcases hs.2.phase_cases with e | e <;> rw [e] at hq <;> simp at hq
  · have hs := scanService_spec s putsChars .putsScan
    exact ⟨hs.1, hp ▸ hs.2.1, fun hq => hs.2.2.2 fun e => by rw [State.putsService, e] at hq; simp at hq⟩
  · have hs := scanService_spec s putspChars .putspScan
    exact ⟨hs.1, hp ▸ hs.2.1, fun hq => hs.2.2.2 fun e => by rw [State.putspService, e] at hq; simp at hq⟩

end Sys2Proof.Machine
end

