-- ==== Sys2Proof/Tests/Slice0.lean ====
section
/-! SUPPORT. The model's own tests. Expected results are those of spec/95_test_vectors.md, by the id in each docstring, or of
the rule named there; and for every statement with hypotheses, a witness that meets them. -/

namespace Sys2Proof.Tests

open Sys2Proof Sys2Proof.Machine

/-! ## Helpers -/

/-- A register file with R0 to R3 given, the others zero. -/
def regs4 (a b c d : Word) : RegFile := ⟨a, b, c, d, 0, 0, 0, 0⟩

/-- The reset state with some words of memory and another `pc`. -/
def start (pc : Word) (words : List (Word × Word)) : State :=
  { State.reset with pc := pc, mem := words.foldl (fun m p => m.write p.1 p.2) ⟨[]⟩ }

/-- The state after one step. -/
def ran (s : State) : State :=
  match step s with
  | .next t => t
  | .fault _ => s
  | .refused _ => s

/-- A register, the flags and `pc`. -/
def seen (r : Reg) (s : State) : Word × Cond × Word := (s.reg r, s.cond, s.pc)

/-- R0, R7, the output. -/
def served (s : State) : Word × Word × List Byte := (s.reg .r0, s.reg .r7, s.output)

/-- The run state, the cause's number, the record's two words. -/
def record (s : State) : RunState × BitVec 2 × Word × Word := (s.runState, s.faultCause.code, s.faultIr, s.faultAddr)

/-- A turn at which one character arrives. -/
def brings (c : Byte) : HostTurn := { HostTurn.quiet with arrivals := [c] }

/-- A turn whose host operation fails. -/
def failing : HostTurn := { HostTurn.quiet with fails := true }

/-- A turn at which the host requests a stop. -/
def stopping : HostTurn := { HostTurn.quiet with stops := true }

/-! ## Well-formedness: the one ill-formed kind of term, TRAP with a defined vector, is refused (R89) -/

theorem test_wellFormed_refuses_trap_x20 : (Instr.trap 0x20).wellFormed = false := by decide
theorem test_wellFormed_refuses_trap_x25 : (Instr.trap 0x25).wellFormed = false := by decide
theorem test_wellFormed_takes_trap_x1F : (Instr.trap 0x1F).wellFormed = true := by decide
theorem test_wellFormed_takes_trap_x26 : (Instr.trap 0x26).wellFormed = true := by decide

/-! ## Decoding: words written out from 95_test_vectors.md 2.10 and the vectors of 2.3 to 2.8 -/

theorem test_decode_br : decodeWord 0b0000_101_111111110 = .br true false true 0x1FE := by decide
theorem test_decode_addReg : decodeWord 0b0001_010_000_0_00_001 = .addReg .r2 .r0 .r1 := by decide
theorem test_decode_addImm : decodeWord 0b0001_000_000_1_00101 = .addImm .r0 .r0 5 := by decide
theorem test_decode_ld : decodeWord 0b0010_001_000000111 = .ld .r1 7 := by decide
theorem test_decode_st : decodeWord 0b0011_000_000000110 = .st .r0 6 := by decide
theorem test_decode_jsr : decodeWord 0b0100_1_00000000011 = .jsr 3 := by decide
theorem test_decode_jsrr : decodeWord 0b0100_0_11_111_000000 = .jsrr .r7 := by decide
theorem test_decode_andReg : decodeWord 0b0101_011_001_0_00_010 = .andReg .r3 .r1 .r2 := by decide
theorem test_decode_andImm : decodeWord 0b0101_001_001_1_10000 = .andImm .r1 .r1 0x10 := by decide
theorem test_decode_ldr : decodeWord 0b0110_011_001_111111 = .ldr .r3 .r1 0x3F := by decide
theorem test_decode_str : decodeWord 0b0111_001_000_000001 = .str .r1 .r0 1 := by decide
theorem test_decode_rti : decodeWord 0b1000_111111111111 = .rti := by decide
theorem test_decode_not : decodeWord 0b1001_001_001_000000 = .not .r1 .r1 := by decide
theorem test_decode_ldi : decodeWord 0b1010_001_000000111 = .ldi .r1 7 := by decide
theorem test_decode_sti : decodeWord 0b1011_001_000000110 = .sti .r1 6 := by decide
theorem test_decode_jmp : decodeWord 0b1100_111_010_111111 = .jmp .r2 := by decide
theorem test_decode_res : decodeWord 0b1101_000100100011 = .res := by decide
theorem test_decode_lea : decodeWord 0b1110_000_000001010 = .lea .r0 10 := by decide
theorem test_decode_trap : decodeWord 0b1111_1111_11111111 = .trap 0xFF := by decide
theorem test_decode_getc : decodeWord 0b1111_0000_00100000 = .getc := by decide
theorem test_decode_out : decodeWord 0b1111_1111_00100001 = .out := by decide
theorem test_decode_puts : decodeWord 0b1111_0000_00100010 = .puts := by decide
theorem test_decode_inChar : decodeWord 0b1111_0000_00100011 = .inChar := by decide
theorem test_decode_putsp : decodeWord 0b1111_0000_00100100 = .putsp := by decide
theorem test_decode_halt : decodeWord 0b1111_0000_00100101 = .halt := by decide

/-- The bytes of a word, in the order of the image file (R213): 0x10 then 0x25. -/
theorem test_decode_bytes : decode [0x10, 0x25, 0xF0] = .ok (.addImm .r0 .r0 5, [0xF0]) := by decide
theorem test_decode_truncated : decode [0x10] = .error .truncated := by decide
theorem test_decodeTableWord : decodeTableWord 16 0x927F = some (.not .r1 .r1) := by decide

/-- Canonical don't-care bits (R88): NOT R1, R1 is 0x927F, RET is 0xC1C0. -/
theorem test_encode_canonical : encodeWord (.not .r1 .r1) = 0x927F ∧ encodeWord (.jmp .r7) = 0xC1C0 := by decide

/-! ## Reset, memory, image -/

/-- T-RST-1. -/
theorem test_reset : State.reset.pc = 0x3000 ∧ State.reset.cond = .zero ∧ State.reset.regs = regs4 0 0 0 0 ∧
    State.reset.runState = .running ∧ State.reset.faultCause = .none ∧ State.reset.output = [] := by decide

/-- T-RST-2: a step over empty memory is a no-op. -/
theorem test_zero_word_is_no_op : ran State.reset = { State.reset with pc := 0x3001 } := by decide

/-- R52, R29: writing zero takes the word out of the canonical form. -/
theorem test_memory_canonical : ((Memory.mk []).write 0x3000 0x1025).write 0x3000 0 = ⟨[]⟩ := by decide
theorem test_memory_wf : (((Memory.mk []).write 0xFFFF 0xF025).write 0x0000 0x0100).wf := by decide
theorem test_memory_not_wf : ¬ (Memory.mk [(0x6001, 0x25), (0x6000, 0x10)]).wf := by decide

/-- P1 as a file: origin 0x3000, then two words. -/
theorem test_loadFile : ((Memory.mk []).loadFile [0x30, 0x00, 0x10, 0x25, 0xF0, 0x25]).map
    (fun m => (m.read 0x3000, m.read 0x3001, m.read 0x3002)) = some (0x1025, 0xF025, 0) := by decide

/-! ## ADD, AND, NOT -/

/-- T-ALU-3. -/
theorem test_addReg_wraps : seen .r2 (ran { start 0x3000 [(0x3000, 0x1401)] with
    regs := regs4 0xFFFF 1 0 0, cond := .positive }) = (0x0000, .zero, 0x3001) := by decide
/-- T-ALU-12, T-ALU-2: don't-care bits set, signed overflow. -/
theorem test_addReg_overflow : seen .r2 (ran { start 0x3000 [(0x3000, 0x1419)] with regs := regs4 0x7FFF 1 0 0 }) =
    (0x8000, .negative, 0x3001) := by decide
/-- T-ALU-7. -/
theorem test_addImm_negative : seen .r0 (ran (start 0x3000 [(0x3000, 0x103F)])) = (0xFFFF, .negative, 0x3001) := by decide
/-- T-ALU-10. -/
theorem test_addImm_positive : seen .r0 (ran { start 0x3000 [(0x3000, 0x102F)] with regs := regs4 0xFFF1 0 0 0 }) =
    (0x0000, .zero, 0x3001) := by decide
/-- T-ALU-13. -/
theorem test_andReg : seen .r3 (ran { start 0x3000 [(0x3000, 0x5642)] with regs := regs4 0 0xF0F0 0x8FF0 0 }) =
    (0x80F0, .negative, 0x3001) := by decide
/-- T-ALU-17. -/
theorem test_andImm_sign_extends : seen .r1 (ran { start 0x3000 [(0x3000, 0x5270)] with regs := regs4 0 0xBEEF 0 0 }) =
    (0xBEE0, .negative, 0x3001) := by decide
/-- T-ALU-23. -/
theorem test_not : seen .r1 (ran { start 0x3000 [(0x3000, 0x927F)] with regs := regs4 0 0x8000 0 0, cond := .negative }) =
    (0x7FFF, .positive, 0x3001) := by decide

/-! ## BR, JMP, JSR, JSRR -/

/-- T-CTL-1. -/
theorem test_br_taken : seen .r0 (ran { start 0x3007 [(0x3007, 0x03FB)] with cond := .positive }) =
    (0, .positive, 0x3003) := by decide
/-- T-CTL-5: BR at 0xFFFF with offset 1 wraps. -/
theorem test_br_wraps : seen .r0 (ran (start 0xFFFF [(0xFFFF, 0x0E01)])) = (0, .zero, 0x0001) := by decide
/-- T-CTL-6. -/
theorem test_jmp : seen .r2 (ran { start 0x4005 [(0x4005, 0xCEBF)] with regs := regs4 0 0 0x4000 0 }) =
    (0x4000, .zero, 0x4000) := by decide
/-- T-CTL-10: JSR #-1024. -/
theorem test_jsr : seen .r7 (ran (start 0x3000 [(0x3000, 0x4C00)])) = (0x3001, .zero, 0x2C01) := by decide
/-- T-CTL-8. -/
theorem test_jsrr : seen .r7 (ran { start 0x3000 [(0x3000, 0x4080)] with regs := regs4 0 0 0x5000 0 }) =
    (0x3001, .zero, 0x5000) := by decide
/-- T-CTL-9: R7 is written first. -/
theorem test_jsrr_r7 : seen .r7 (ran { start 0x3000 [(0x3000, 0x41C0)] with regs := ⟨0, 0, 0, 0, 0, 0, 0, 0x5000⟩ }) =
    (0x3001, .zero, 0x3001) := by decide

/-! ## LD, LDI, LDR, LEA -/

/-- T-LD-3. -/
theorem test_ld_back : seen .r1 (ran (start 0x3000 [(0x3000, 0x2300), (0x2F01, 0x8001)])) =
    (0x8001, .negative, 0x3001) := by decide
/-- T-LD-5. -/
theorem test_ld_wraps : seen .r1 (ran (start 0xFFFF [(0xFFFF, 0x2200), (0x0000, 0x1234)])) =
    (0x1234, .positive, 0x0000) := by decide
/-- T-LD-6. -/
theorem test_ldi : seen .r1 (ran (start 0x3000 [(0x3000, 0xA207), (0x3008, 0x300A), (0x300A, 7)])) =
    (7, .positive, 0x3001) := by decide
/-- T-LD-10. -/
theorem test_ldr_wraps : seen .r3 (ran (start 0x3000 [(0x3000, 0x667F), (0xFFFF, 0x8000)])) =
    (0x8000, .negative, 0x3001) := by decide
/-- T-LD-13: the destination is the base. -/
theorem test_ldr_base : seen .r1 (ran { start 0x3000 [(0x3000, 0x6240), (0x4000, 0xABCD)] with
    regs := regs4 0 0x4000 0 0 }) = (0xABCD, .negative, 0x3001) := by decide
/-- T-LD-16: LEA sets the flags. -/
theorem test_lea_flags : seen .r0 (ran (start 0x8000 [(0x8000, 0xE000)])) = (0x8001, .negative, 0x8001) := by decide

/-! ## ST, STI, STR -/

/-- T-ST-1. -/
theorem test_st : (fun t : State => (t.mem.read 0x300F, t.cond, t.pc)) (ran { start 0x3008 [(0x3008, 0x3006)] with
    regs := regs4 0x800F 0 0 0, cond := .negative }) = (0x800F, .negative, 0x3009) := by decide
/-- T-ST-2: it overwrites itself and completes as fetched. -/
theorem test_st_self : (fun t : State => (t.mem.read 0x3000, t.ir, t.pc)) (ran { start 0x3000 [(0x3000, 0x33FF)] with
    regs := regs4 0 0xABCD 0 0 }) = (0xABCD, 0x33FF, 0x3001) := by decide
/-- T-ST-3. -/
theorem test_sti : (fun t : State => (t.mem.read 0x300B, t.mem.read 0x3009)) (ran { start 0x3002
    [(0x3002, 0xB206), (0x3009, 0x300B)] with regs := regs4 0 0xFFF9 0 0 }) = (0xFFF9, 0x300B) := by decide
/-- T-ST-8: a store to KBSR is plain, and takes no character. -/
theorem test_sti_kbsr : (fun t : State => (t.kbsr, t.input)) (ran { start 0x3000 [(0x3000, 0xB201), (0x3002, 0xFE00)] with
    regs := regs4 0 0x1234 0 0, input := [0x61] }) = (0x1234, [0x61]) := by decide
/-- T-ST-6. -/
theorem test_str_wraps : (ran { start 0x3000 [(0x3000, 0x723F)] with regs := regs4 0 0x77 0 0 }).mem.read 0xFFFF = 0x77 := by
  decide

/-! ## The keyboard -/

/-- T-KBD-1. -/
theorem test_poll_none : seen .r0 (ran { start 0x3000 [(0x3000, 0xA001), (0x3002, 0xFE00)] with cond := .positive }) =
    (0, .zero, 0x3001) := by decide
/-- T-KBD-2. -/
theorem test_poll_ready : (fun t : State => (t.reg .r0, t.kbsr, t.kbdr, t.input)) (ran { start 0x3000
    [(0x3000, 0xA001), (0x3002, 0xFE00)] with input := [0x61] }) = (0x8000, 0x8000, 0x61, []) := by decide
/-- T-KBD-4. -/
theorem test_poll_none_keeps_kbdr : (fun t : State => (t.reg .r0, t.kbsr, t.kbdr)) (ran (start 0x3000
    [(0x3000, 0xA001), (0x3002, 0xFE00), (0xFE00, 5), (0xFE02, 0x61)])) = (0, 0, 0x61) := by decide
/-- T-KBD-8: a fetch from KBSR polls. -/
theorem test_fetch_polls : (fun t : State => (t.ir, t.pc, t.runState)) (ran (start 0xFE00 [(0xFE00, 0x1234)])) =
    (0, 0xFE01, .running) := by decide
/-- T-KBD-9. -/
theorem test_fetch_polls_ready : (fun t : State => (t.kbdr, record t)) (ran { start 0xFE00 [] with input := [0x61] }) =
    (0x61, .halted, 1, 0x8000, 0xFE00) := by decide
/-- R180, R186: the fetch read fails; neither `ir` nor `pc` is written. -/
theorem test_fetch_fails : (fun t : State => (t.pc, t.ir, t.runState, t.faultCause, t.faultAddr)) (ran { start 0xFE00 [] with
    schedule := [.quiet, failing], ir := 7 }) = (0xFE00, 7, .halted, .hostIOFailure, 0xFE00) := by decide

/-! ## TRAP and the services -/

/-- T-TRAP-1: zero-extended, flags left alone. -/
theorem test_getc : (fun t : State => (served t, t.cond, t.input)) (ran { start 0x3000 [(0x3000, 0xF020)] with
    regs := regs4 0xFFFF 0 0 0, cond := .negative, input := [0xE9, 0x62] }) =
    ((0x00E9, 0x3001, []), .negative, [0x62]) := by decide
/-- T-TRAP-9: at end of input. -/
theorem test_getc_at_end : (fun t : State => (served t, record t)) (ran { start 0x3000 [(0x3000, 0xF020)] with
    regs := regs4 0x1234 0 0 0, inputEnded := true }) = ((0x1234, 0x3001, []), .halted, 3, 0xF020, 0x3000) := by decide
/-- T-TRAP-2, T-TRAP-8. -/
theorem test_out : served (ran { start 0x3000 [(0x3000, 0xFF21)] with regs := regs4 0x1241 0 0 0 }) =
    (0x1241, 0x3001, [0x41]) := by decide
/-- T-TRAP-3: low bytes, 0x0100 ends nothing. -/
theorem test_puts : served (ran { start 0x3000 [(0x3000, 0xF022), (0x4000, 0x0141), (0x4001, 0x0100), (0x4002, 0x42)] with
    regs := regs4 0x4000 0 0 0 }) = (0x4000, 0x3001, [0x41, 0x00, 0x42]) := by decide
/-- T-TRAP-3: the scan wraps. -/
theorem test_puts_wraps : served (ran { start 0x3000 [(0x3000, 0xF022), (0xFFFF, 0x41), (0x0000, 0x42)] with
    regs := regs4 0xFFFF 0 0 0 }) = (0xFFFF, 0x3001, [0x41, 0x42]) := by decide
/-- T-TRAP-4. -/
theorem test_in : served (ran { start 0x3000 [(0x3000, 0xF023)] with regs := regs4 0xFFFF 0 0 0, input := [0x61] }) =
    (0x61, 0x3001, Config.default.inPrompt ++ [0x61]) := by decide
/-- R155, R162: a failing echo leaves R0 unwritten; the prompt stands. -/
theorem test_in_failing_echo : (fun t : State => (served t, t.faultCause)) (ran { start 0x3000 [(0x3000, 0xF023)] with
    regs := regs4 0xFFFF 0 0 0, input := [0x61], schedule := List.replicate 22 .quiet ++ [failing] }) =
    ((0xFFFF, 0x3001, Config.default.inPrompt), .hostIOFailure) := by decide
/-- T-TRAP-5. -/
theorem test_putsp : served (ran { start 0x3000 [(0x3000, 0xF024), (0x4000, 0x4100), (0x4001, 0x48), (0x4002, 0x49)] with
    regs := regs4 0x4000 0 0 0 }) = (0x4000, 0x3001, [0x00, 0x41, 0x48, 0x49]) := by decide
/-- T-TRAP-6. -/
theorem test_halt : (fun t : State => (served t, t.pc, t.cond, record t)) (ran { start 0x3001 [(0x3001, 0xF025)] with
    regs := regs4 5 0 0 0, cond := .positive }) =
    ((5, 0x3002, [0x48, 0x41, 0x4C, 0x54, 0x0A]), 0x3002, .positive, .halted, 0, 0, 0) := by decide
/-- T-TRAP-7. -/
theorem test_trap_undefined : (fun t : State => (served t, t.pc, record t)) (ran { start 0x3001 [(0x3001, 0xF026)] with
    regs := ⟨0, 0, 0, 0, 0, 0, 0, 0x1111⟩ }) = ((0, 0x3002, []), 0x3002, .halted, 2, 0xF026, 0x3001) := by decide
/-- R161, R205: the character that arrives wakes a blocked read. -/
theorem test_arrival_wakes : (fun t : State => (t.phase, t.reg .r0, t.runState)) (ran { start 0x3001 [] with
    phase := .getcRead, ir := 0xF020, schedule := [brings 0x61] }) = (.between, 0x61, .running) := by decide
/-- R197: a stop request is honoured before the fetch. -/
theorem test_stop : ran { start 0x3000 [(0x3000, 0xF021)] with schedule := [stopping] } =
    { start 0x3000 [(0x3000, 0xF021)] with runState := .halted, stopRequested := true } := by decide

/-! ## The undefined opcodes -/

/-- T-UND-1. -/
theorem test_rti : (fun t : State => (seen .r2 t, record t)) (ran { start 0x3001 [(0x3001, 0x8000)] with
    regs := regs4 0 0 3 0, cond := .positive }) = ((3, .positive, 0x3002), .halted, 1, 0x8000, 0x3001) := by decide
/-- T-UND-2. -/
theorem test_res : (fun t : State => (seen .r2 t, record t)) (ran { start 0x3001 [(0x3001, 0xD123)] with
    regs := regs4 0 0 3 0, cond := .positive }) = ((3, .positive, 0x3002), .halted, 1, 0xD123, 0x3001) := by decide

/-! ## The instruction that the host places -/

/-- `withFetchWord` makes the next step run the word. -/
theorem test_withFetchWord : seen .r0 (ran (State.reset.withFetchWord 16 0x1025)) = (5, .positive, 0x3001) := by decide
/-- Also in a machine that is HALTED. -/
theorem test_withFetchWord_halted : seen .r0 (ran (State.withFetchWord { State.reset with runState := .halted } 16 0x1025)) =
    (5, .positive, 0x3001) := by decide

/-! ## Witnesses: states that meet the hypotheses of each statement that has some -/

/-- A memory in which every byte is 1, so that no word of it is zero. -/
def fullCells (first n : Nat) : List Host.Cell := (List.range' first n).map fun k => (k, 1)

theorem cellGet_fullCells (n : Nat) : ∀ first k : Nat, first ≤ k → k < first + n → cellGet (fullCells first n) k = 1 := by
  induction n with
  | zero => intro first k h h'; omega
  | succ n ih =>
    intro first k h h'
    rw [fullCells, List.range'_succ, List.map_cons, cellGet]
    split
    · rfl
    · exact ih (first + 1) k (by omega) (by omega)

@[irreducible] def fullMemory (n : Nat) : Memory := ⟨fullCells 0 n⟩

theorem fullMemory_read (n : Nat) (h : 0x20000 ≤ n) (a : Word) : (fullMemory n).read a = 0x0101 := by
  have ha := a.isLt
  unfold fullMemory
  rw [Memory.read, cellGet_fullCells n 0 _ (by omega) (by omega), cellGet_fullCells n 0 _ (by omega) (by omega)]
  rfl

theorem fullMemory_wf (n : Nat) (h : n ≤ 0x20000) : (fullMemory n).wf := by
  refine ⟨?_, fun c hc => ?_⟩
  · simp only [fullMemory, fullCells, List.pairwise_map]
    exact List.pairwise_lt_range'
  · simp only [fullMemory, fullCells, List.mem_map, List.mem_range'_1] at hc
    obtain ⟨k, hk, rfl⟩ := hc
    exact ⟨by simp only; omega, show (1 : Byte) ≠ 0 by decide⟩

theorem fullMemory_nonzero (n : Nat) (h : 0x20000 ≤ n) (a : Word) : (fullMemory n).read a ≠ 0 := by
  rw [fullMemory_read n h]
  decide

/-- A state over the full memory. -/
def fullState : State := { State.reset with mem := fullMemory 0x20000 }

theorem reliable_of_empty {s : State} (h : s.schedule = []) : s.HostReliable := fun t ht => by simp [h] at ht

/-- A schedule in which the host fails its operation number `k`. -/
@[irreducible] def failingAt (k : Nat) : List HostTurn := List.replicate k .quiet ++ [failing]

theorem failsFirstAt_of_schedule {s : State} {k : Nat} (h : s.schedule = failingAt k) : s.FailsFirstAt k := by
  have e : ∀ j, (State.takeTurn^[j] s).nextTurn = ((List.replicate k HostTurn.quiet ++ [failing])[j]?).getD .quiet :=
    fun j => by rw [takeTurns_nextTurn, h, failingAt, List.headD_eq_head?_getD, List.head?_drop]
  refine ⟨fun j hj => ?_, ?_⟩
  · rw [e, List.getElem?_append_left (by simpa using hj), List.getElem?_replicate, if_pos hj]
    rfl
  · rw [e, List.getElem?_append_right (by simp)]
    simp [failing]

/-- A state that polls: `pc` is such that offset 0 gives KBSR. -/
def polling : State := { State.reset with pc := 0xFE00 }

/-- The same, with the poll failing. -/
def pollFails : State := { polling with schedule := [failing] }

theorem test_witness_DecodeEncodeRoundTrip :
    (Instr.trap 0xFF).wellFormed = true ∧ (Instr.ldr .r7 .r0 0x20).wellFormed = true := by decide

/-- Both alternatives: the word of HALT has the fixed bits of the rows HALT and TRAP. -/
theorem test_witness_DecodedRowIsTheOneThatMatches :
    (0xFF25 : Word) &&& Instr.halt.row.mask = Instr.halt.row.pattern ∧
      (0xFF25 : Word) &&& (Instr.trap 0).row.mask = (Instr.trap 0).row.pattern := by decide

theorem test_witness_DontCareBitsAreIgnored :
    (0x1401 : Word) &&& (decodeWord 0x1401).careMask = 0x1419 &&& (decodeWord 0x1401).careMask := by decide

theorem test_witness_ExtensionKeepsTheNumber : 5 ∈ [5, 6, 9, 11] ∧ 11 ∈ [5, 6, 9, 11] := by decide

/-- One word at the last address, and the address below it. -/
theorem test_witness_ImageWordsStandFromTheirOrigin :
    (0xFFFF : Word).toNat + [(0x1025 : Word)].length ≤ 65536 ∧ 0 < [(0x1025 : Word)].length ∧
      (0xFFFE : Word).toNat < (0xFFFF : Word).toNat ∧
      (0x3000 : Word).toNat + [(0x1025 : Word)].length ≤ (0x3001 : Word).toNat := by decide

theorem test_witness_StoreSetsOneWord : (0x0000 : Word) ≠ 0xFFFF := by decide

/-- Two ways to the same memory. -/
theorem test_witness_CanonicalMemoriesThatReadTheSameAreEqual :
    ((Memory.mk []).write 0x3000 0x1025).wf ∧ (((Memory.mk []).write 0x3000 0xFFFF).write 0x3000 0x1025).wf ∧
      ∀ a, ((Memory.mk []).write 0x3000 0x1025).read a = (((Memory.mk []).write 0x3000 0xFFFF).write 0x3000 0x1025).read a :=
  ⟨by decide, by decide, fun a => by
    by_cases h : a = 0x3000
    · simp [h]
    · rw [Memory.read_write, Memory.read_write, Memory.read_write, if_neg h, if_neg h, if_neg h]⟩

/-- 0xFDFF is not polled; a poll succeeds; a poll fails. -/
theorem test_witness_MemReadPollsOnlyAtKbsr :
    (0xFDFF : Word) ≠ 0xFE00 ∧ (∃ t, State.reset.keyboardPoll = .ok () t) ∧ (∃ t, pollFails.keyboardPoll = .failed t) :=
  ⟨by decide, ⟨_, rfl⟩, ⟨_, rfl⟩⟩

/-- A character that arrives at the poll, with KBSR zero; and one with other bits of KBSR set. -/
theorem test_witness_ReadyPollMovesTheCharacter :
    (fun s : State => s.nextTurn.fails = false ∧ s.takeTurn.nextTurn.fails = false ∧ s.takeTurn.input = 0x61 :: [] ∧
      (s.mem.read 0xFE00).extractLsb' 0 15 = 0) { State.reset with schedule := [brings 0x61] } ∧
    (fun s : State => s.nextTurn.fails = false ∧ s.takeTurn.nextTurn.fails = false ∧ s.takeTurn.input = 0x61 :: [0x62])
      { start 0x3000 [(0xFE00, 5)] with input := [0x61, 0x62] } := by decide

theorem test_witness_UnreadyPollClearsKbsr :
    State.reset.nextTurn.fails = false ∧ State.reset.takeTurn.input = [] := by decide

theorem test_witness_MemReadFailsOnlyThroughTheHost :
    (∃ t, pollFails.memRead 0xFE00 = .failed t) ∧ pollFails.nextTurn.fails = true ∧
      (fun s : State => s.nextTurn.fails = false ∧ s.takeTurn.input ≠ [] ∧ s.takeTurn.nextTurn.fails = true)
        { State.reset with input := [0x61], schedule := [.quiet, failing] } :=
  ⟨⟨_, rfl⟩, by decide⟩

theorem test_witness_StepRunsTheDecodedInstruction :
    (fun s : State => s.runState = .running ∧ s.phase = .between ∧ s.takeTurn.stopRequested = false ∧ s.pc ≠ 0xFE00 ∧
      decode (wordBytes (s.mem.read s.pc) ++ []) = .ok (.halt, [])) (start 0xFDFF [(0xFDFF, 0xF025)]) ∧
    (fun s : State => s.runState = .running ∧ s.phase = .between ∧ s.takeTurn.stopRequested = false) polling ∧
      ∃ t, polling.takeTurn.memRead polling.pc = .ok 0 t :=
  ⟨by decide, by decide, ⟨_, rfl⟩⟩

theorem test_witness_FailedFetchWritesNeitherIrNorPc :
    (fun s : State => s.runState = .running ∧ s.phase = .between ∧ s.takeTurn.stopRequested = false)
      { polling with schedule := [.quiet, failing] } ∧
      ∃ t, (State.takeTurn { polling with schedule := [.quiet, failing] }).memRead 0xFE00 = .failed t :=
  ⟨by decide, ⟨_, rfl⟩⟩

/-- The three ways into HALTED: the HALT service, a fatal error, a stop request; and HALTED itself. -/
theorem test_witness_HaltedIsAbsorbingAndEnteredOnlyAsTheSpecSays :
    (ran State.reset).runState = .running ∧
    (∀ s ∈ [start 0x3000 [(0x3000, 0xF025)], start 0x3000 [(0x3000, 0x8000)], { State.reset with schedule := [stopping] }],
      s.runState = .running ∧ step s = .next (ran s) ∧ (ran s).runState = .halted) := by
  refine ⟨by decide, ?_⟩
  intro s hs
  simp only [List.mem_cons, List.not_mem_nil, or_false] at hs
  rcases hs with rfl | rfl | rfl <;> exact ⟨by decide, rfl, by decide⟩

theorem test_witness_StopRequestHalts :
    (fun s : State => s.runState = .running ∧ s.takeTurn.stopRequested = true ∧ s.phase = .between)
      { State.reset with schedule := [stopping] } ∧
    (∀ p ∈ [Phase.getcRead, Phase.inRead], (fun s : State => s.runState = .running ∧ s.takeTurn.stopRequested = true ∧
      s.phase = p ∧ s.nextTurn.fails = false ∧ s.takeTurn.input = [] ∧ s.takeTurn.inputEnded = false)
      { State.reset with phase := p, schedule := [stopping] }) := by decide

/-- Nothing comes; the read fails; the input ends while it waits. -/
theorem test_witness_BlockedReadWaits :
    ∀ p ∈ [Phase.getcRead, Phase.inRead],
      (fun s : State => s.runState = .running ∧ s.phase = p ∧ s.nextTurn.fails = false ∧ s.takeTurn.input = [] ∧
        s.takeTurn.inputEnded = false ∧ s.takeTurn.stopRequested = false) { State.reset with phase := p } ∧
      (fun s : State => s.runState = .running ∧ s.phase = p ∧ s.nextTurn.fails = true)
        { pollFails with phase := p } ∧
      (fun s : State => s.runState = .running ∧ s.phase = p ∧ s.takeTurn.input = [] ∧ s.takeTurn.inputEnded = true)
        { State.reset with phase := p, schedule := [{ HostTurn.quiet with ends := true }] } := by decide

/-- The character arrives and the host works; it fails the echo; it fails the flush. -/
theorem test_witness_ArrivalWakesABlockedRead :
    (∀ p ∈ [Phase.getcRead, Phase.inRead], (fun s : State => s.runState = .running ∧ (∀ t ∈ s.schedule, t.fails = false) ∧
      s.nextTurn.fails = false ∧ s.takeTurn.input = 0x61 :: [] ∧ s.phase = p)
      { State.reset with phase := p, schedule := [brings 0x61] }) ∧
    (∀ k ∈ [1, 2], (fun s : State => s.runState = .running ∧ s.FailsFirstAt k ∧ s.takeTurn.input = 0x61 :: [] ∧
      s.phase = .inRead) { State.reset with phase := .inRead, input := [0x61], schedule := failingAt k }) := by
  refine ⟨by decide, fun k hk => ⟨rfl, failsFirstAt_of_schedule rfl, ?_, rfl⟩⟩
  simp only [List.mem_cons, List.not_mem_nil, or_false] at hk
  rcases hk with rfl | rfl <;> unfold failingAt <;> rfl

/-- A running machine inside the endless scan of PUTS, of PUTSP. -/
def scanning (p : Phase) (ir : Word) : State :=
  { fullState with phase := p, ir := ir, pc := 0, regs := regs4 0 0 0 0 }

theorem scanning_inv {p : Phase} {ir : Word} (l : List HostTurn)
    (h : (p = .putsScan ∧ decodeWord ir = .puts) ∨ (p = .putspScan ∧ decodeWord ir = .putsp)) :
    State.Inv { scanning p ir with schedule := l } := by
  rcases h with ⟨rfl, h⟩ | ⟨rfl, h⟩
  · exact ⟨fullMemory_wf _ (le_refl _), nofun, nofun, nofun, fun _ => ⟨rfl, rfl⟩, nofun, nofun, fun _ => h, nofun,
      fun _ => fullMemory_nonzero _ (le_refl _)⟩
  · exact ⟨fullMemory_wf _ (le_refl _), nofun, nofun, nofun, fun _ => ⟨rfl, rfl⟩, nofun, nofun, nofun, fun _ => h,
      fun _ => fullMemory_nonzero _ (le_refl _)⟩

/-- The last write of PUTSP for the first `n` words fails. -/
theorem scanning_last_write_fails (n : Nat) (h : 0 < n) : ∃ (s : State) (k : Nat), s.Inv ∧ s.phase = .putspScan ∧
    k + 1 = (s.putspText n).length ∧ s.FailsFirstAt k :=
  ⟨{ scanning .putspScan 0xF024 with schedule := failingAt (((scanning .putspScan 0xF024).putspText n).length - 1) },
    ((scanning .putspScan 0xF024).putspText n).length - 1, scanning_inv _ (.inr ⟨rfl, by decide⟩), rfl,
    Nat.sub_add_cancel (Nat.le_trans h (le_length_putspText (scanning .putspScan 0xF024) n)),
    failsFirstAt_of_schedule rfl⟩

/-- The host works; it fails the last write of a lap. -/
theorem test_witness_EndlessScanGoesOnForEver :
    ((scanning .putsScan 0xF022).Inv ∧ (scanning .putsScan 0xF022).HostReliable ∧
      (scanning .putsScan 0xF022).phase = .putsScan) ∧
    ((scanning .putspScan 0xF024).Inv ∧ (scanning .putspScan 0xF024).HostReliable ∧
      (scanning .putspScan 0xF024).phase = .putspScan) ∧
    (∃ s : State, s.Inv ∧ s.phase = .putsScan ∧ 65535 < 65536 ∧ s.FailsFirstAt 65535) ∧
    (∃ (s : State) (k : Nat), s.Inv ∧ s.phase = .putspScan ∧ k + 1 = (s.putspText 65536).length ∧ s.FailsFirstAt k) :=
  ⟨⟨scanning_inv [] (.inl ⟨rfl, by decide⟩), reliable_of_empty rfl, rfl⟩,
    ⟨scanning_inv [] (.inr ⟨rfl, by decide⟩), reliable_of_empty rfl, rfl⟩,
    ⟨_, scanning_inv (ir := 0xF022) _ (.inl ⟨rfl, by decide⟩), rfl, by decide, failsFirstAt_of_schedule rfl⟩,
    scanning_last_write_fails 65536 (Nat.zero_lt_succ _)⟩

/-- A state with a blocked GETC meets the invariant and has a step. -/
theorem test_witness_StepKeepsTheInvariant :
    (fun s : State => s.Inv ∧ step s = .next s.takeTurn)
      { State.reset with phase := .getcRead, ir := 0xF020, regs := ⟨0, 0, 0, 0, 0, 0, 0, 0x3001⟩, pc := 0x3001 } :=
  ⟨⟨Memory.empty_wf, nofun, nofun, nofun, fun _ => ⟨rfl, rfl⟩, fun _ => by decide, nofun, nofun, nofun,
    fun h => by rcases h with h | h <;> cases h⟩, rfl⟩

theorem test_witness_ResetMeetsTheInvariant : ((Memory.mk []).loadWords 0x3000 [0x1025, 0xF025]).wf := by decide

/-- A register that a service does not write; R0 under an undefined vector; a destination's neighbour. -/
theorem test_witness_OnlyListedRegistersChange :
    (∃ t, exec .getc State.reset = .next t) ∧ Instr.getc.writesReg .r6 = false ∧
    (∃ t, exec (.trap 0x26) State.reset = .next t) ∧ (Instr.trap 0x26).writesReg .r0 = false ∧
    (∃ t, exec (.addImm .r3 .r0 1) State.reset = .next t) ∧ (Instr.addImm .r3 .r0 1).writesReg .r2 = false :=
  ⟨⟨_, rfl⟩, by decide, ⟨_, rfl⟩, by decide, ⟨_, rfl⟩, by decide⟩

/-- A load that succeeds, a load that fails, and an instruction that leaves the flags alone. -/
theorem test_witness_FlagsFollowTheDestination :
    ((Instr.ld .r0 0).flagReg = some .r0 ∧ (∃ t, exec (.ld .r0 0) State.reset = .next t) ∧
      State.reset.runState = .running) ∧
    ((∃ t, exec (.ld .r0 0) pollFails = .next t ∧ t.faultCause = .hostIOFailure) ∧ pollFails.runState = .running) ∧
    ((Instr.jsr 0).flagReg = none ∧ ∃ t, exec (.jsr 0) State.reset = .next t) :=
  ⟨⟨rfl, ⟨_, rfl⟩, rfl⟩, ⟨⟨_, rfl, rfl⟩, rfl⟩, rfl, ⟨_, rfl⟩⟩

theorem test_witness_PcAndLatchAreLeftAlone :
    (∃ t, exec (.st .r0 0) State.reset = .next t) ∧ (Instr.st .r0 0).writesPc = false := ⟨⟨_, rfl⟩, rfl⟩

/-- The neighbours of a stored word, and a word that is neither KBSR nor KBDR while STI polls. -/
theorem test_witness_OnlyTheStoredWordChanges :
    ((∃ t, exec (.st .r0 0) State.reset = .next t) ∧ storeAddr (.st .r0 0) State.reset ≠ some 0x3001 ∧
      polls (.st .r0 0) State.reset = false) ∧
    ((∃ t, exec (.sti .r0 0) polling = .next t) ∧ storeAddr (.sti .r0 0) polling ≠ some 0xFE01 ∧
      polls (.sti .r0 0) polling = true ∧ (0xFE01 : Word) ≠ 0xFE00 ∧ (0xFE01 : Word) ≠ 0xFE02) :=
  ⟨⟨⟨_, rfl⟩, by decide, by decide⟩, ⟨_, rfl⟩, by decide, by decide, by decide, by decide⟩

theorem test_witness_HostMattersOnlyToTrapsAndPolls :
    (Instr.ldi .r0 0).isTrap = false ∧ polls (.ldi .r0 0) State.reset = false ∧
      SameCore State.reset { State.reset with input := [0x61], stopRequested := true } :=
  ⟨rfl, by decide, rfl, rfl, rfl, rfl, rfl, rfl, rfl, rfl, rfl, rfl, rfl, rfl⟩

theorem test_witness_FaultRecordIsWrittenWholeAndHalts :
    (∃ t, exec .rti State.reset = .next t) ∧ ∃ t, exec .out State.reset = .next t := ⟨⟨_, rfl⟩, ⟨_, rfl⟩⟩

theorem test_witness_ServicesTouchOnlyWhatTheirRulesName :
    (∀ i ∈ [Instr.getc, .out, .inChar, .halt, .trap 0x26], i.isTrap = true ∧ i.wellFormed = true) ∧
      (∃ t, exec .out State.reset = .next t) ∧ Instr.out ≠ .getc ∧ Instr.out ≠ .inChar ∧ ∃ t, exec .getc State.reset = .next t :=
  ⟨by decide, ⟨_, rfl⟩, by decide, by decide, ⟨_, rfl⟩⟩

/-- A failing write; and a read at the end of the input. -/
theorem test_witness_FailedServiceKeepsWhatItHasDone :
    (Instr.out.isTrap = true ∧ pollFails.faultCause = .none ∧
      ∃ t, exec .out pollFails = .next t ∧ pollFails.schedule = [failing] ++ t.schedule ∧ failing.fails = true) ∧
    (fun s : State => Instr.getc.isTrap = true ∧ s.faultCause = .none ∧
      ∃ t, exec .getc s = .next t ∧ t.faultCause = .hostIOFailure) { State.reset with inputEnded := true } :=
  ⟨⟨rfl, rfl, _, rfl, rfl, rfl⟩, rfl, rfl, _, rfl, rfl⟩

theorem test_witness_StoredWordIsWhatIsFetched : (0xFE01 : Word) ≠ 0xFE00 := by decide

/-- LD: next to KBSR; a poll that succeeds; a poll that fails. -/
theorem test_witness_LdLoadsPcRelative :
    displaced polling.pc (0x1FF : BitVec 9) ≠ 0xFE00 ∧
      (∃ v t, polling.memRead (displaced polling.pc (0 : BitVec 9)) = .ok v t) ∧
      ∃ t, pollFails.memRead (displaced pollFails.pc (0 : BitVec 9)) = .failed t :=
  ⟨by decide, ⟨_, _, rfl⟩, ⟨_, rfl⟩⟩

/-- LDI: no poll; a poll by the second read; by both; a failing first read; a failing second read. -/
theorem test_witness_LdiLoadsThroughOnePointer :
    (fun s : State => displaced s.pc (0 : BitVec 9) ≠ 0xFE00 ∧ s.mem.read (displaced s.pc (0 : BitVec 9)) ≠ 0xFE00)
      State.reset ∧
    (fun s : State => ∃ p t, s.memRead (displaced s.pc (0 : BitVec 9)) = .ok p t ∧ ∃ v u, t.memRead p = .ok v u)
      (start 0x3000 [(0x3000, 0xFE00)]) ∧
    (fun s : State => ∃ p t, s.memRead (displaced s.pc (0 : BitVec 9)) = .ok p t ∧ ∃ u, t.memRead p = .failed u)
      { start 0x3000 [(0x3000, 0xFE00)] with schedule := [failing] } ∧
    ∃ t, pollFails.memRead (displaced pollFails.pc (0 : BitVec 9)) = .failed t :=
  ⟨by decide, ⟨_, _, rfl, _, _, rfl⟩, ⟨_, _, rfl, _, rfl⟩, ⟨_, rfl⟩⟩

theorem test_witness_LdrLoadsBasePlusOffset :
    (fun s : State => displaced (s.reg .r1) (0x3F : BitVec 6) ≠ 0xFE00 ∧
      (∃ v t, s.memRead (displaced (s.reg .r1) (0 : BitVec 6)) = .ok v t)) { State.reset with regs := regs4 0 0xFE00 0 0 } ∧
    (fun s : State => ∃ t, s.memRead (displaced (s.reg .r1) (0 : BitVec 6)) = .failed t)
      { pollFails with regs := regs4 0 0xFE00 0 0 } :=
  ⟨⟨by decide, ⟨_, _, rfl⟩⟩, ⟨_, rfl⟩⟩

theorem test_witness_StStoresPcRelative : (0x0000 : Word) ≠ displaced State.reset.pc (0 : BitVec 9) := by decide

theorem test_witness_StiStoresThroughOnePointer :
    displaced State.reset.pc (0 : BitVec 9) ≠ 0xFE00 ∧
      (∃ p t, polling.memRead (displaced polling.pc (0 : BitVec 9)) = .ok p t) ∧
      (∃ t, pollFails.memRead (displaced pollFails.pc (0 : BitVec 9)) = .failed t) :=
  ⟨by decide, ⟨_, _, rfl⟩, ⟨_, rfl⟩⟩

theorem test_witness_StrStoresBasePlusOffset :
    (0x0001 : Word) ≠ displaced (State.reset.reg .r1) (0 : BitVec 6) := by decide

theorem test_witness_TrapDispatchesOnItsVector :
    (0x1F : BitVec 8).toNat < 0x20 ∧ 0x25 < (0x26 : BitVec 8).toNat := by decide

theorem test_witness_UndefinedVectorIsFatal :
    (0x00 : BitVec 8).toNat < 0x20 ∧ 0x25 < (0xFF : BitVec 8).toNat := by decide

/-- A character; none; none and a stop request; a failing read; the end of the input. -/
theorem test_witness_GetcReadsOneCharacter :
    (fun s : State => s.nextTurn.fails = false ∧ s.takeTurn.input = 0xFF :: [0x00])
      { State.reset with input := [0xFF, 0x00] } ∧
    (fun s : State => s.nextTurn.fails = false ∧ s.takeTurn.input = [] ∧ s.takeTurn.inputEnded = false ∧
      s.takeTurn.stopRequested = false) State.reset ∧
    (fun s : State => s.nextTurn.fails = false ∧ s.takeTurn.input = [] ∧ s.takeTurn.inputEnded = false ∧
      s.takeTurn.stopRequested = true) { State.reset with schedule := [stopping] } ∧
    pollFails.nextTurn.fails = true ∧
    (fun s : State => s.takeTurn.input = [] ∧ s.takeTurn.inputEnded = true) { State.reset with inputEnded := true } := by
  decide

/-- Both work; the write fails; the flush fails. -/
theorem test_witness_OutWritesTheLowByte :
    (State.reset.nextTurn.fails = false ∧ State.reset.takeTurn.nextTurn.fails = false) ∧ pollFails.nextTurn.fails = true ∧
    (fun s : State => s.nextTurn.fails = false ∧ s.takeTurn.nextTurn.fails = true)
      { State.reset with schedule := [.quiet, failing] } := by decide

/-- The empty string, also with its flush failing; the longest there can be: 65535 words, the zero word the last of a lap;
and the last write of a lap failing. -/
theorem test_witness_PutsWritesUpToTheZeroWord :
    (∀ l, (fun s : State => 0 < 65536 ∧ (∀ k < 0, s.mem.read (s.reg .r0 + BitVec.ofNat 16 k) ≠ 0) ∧
      s.mem.read (s.reg .r0 + BitVec.ofNat 16 0) = 0) { State.reset with schedule := l }) ∧
    State.reset.HostReliable ∧ State.FailsFirstAt { State.reset with schedule := failingAt 0 } 0 ∧
    (fun s : State => s.HostReliable ∧ (∀ k < 65535, s.mem.read (s.reg .r0 + BitVec.ofNat 16 k) ≠ 0) ∧
      s.mem.read (s.reg .r0 + BitVec.ofNat 16 65535) = 0)
      { State.reset with mem := (fullMemory 0x20000).write 0xFFFF 0 } ∧
    (fun s : State => (∀ k < 65536, s.mem.read (s.reg .r0 + BitVec.ofNat 16 k) ≠ 0) ∧ 65535 < 65536 ∧
      s.FailsFirstAt 65535) { fullState with schedule := failingAt 65535 } := by
  refine ⟨fun _ => ⟨Nat.zero_lt_succ _, fun k hk => absurd hk (Nat.not_lt_zero k), Memory.read_empty _⟩, reliable_of_empty rfl,
    failsFirstAt_of_schedule rfl, ⟨reliable_of_empty rfl, fun k hk => ?_, ?_⟩,
    fun k _ => fullMemory_nonzero _ (le_refl _) _, by decide, failsFirstAt_of_schedule rfl⟩
  · have hne : (0 : Word) + BitVec.ofNat 16 k ≠ 0xFFFF := by
      intro h
      have := congrArg BitVec.toNat h
      simp at this
      omega
    show ((fullMemory 0x20000).write 0xFFFF 0).read ((0 : Word) + BitVec.ofNat 16 k) ≠ 0
    rw [Memory.read_write, if_neg hne]
    exact fullMemory_nonzero _ (le_refl _) _
  · show ((fullMemory 0x20000).write 0xFFFF 0).read ((0 : Word) + BitVec.ofNat 16 65535) = 0
    rw [Memory.read_write, if_pos (by decide)]

/-- Two words that make three characters; and the flush, the last write, the first write failing. -/
theorem test_witness_PutspWritesTwoCharactersPerWord :
    (fun s : State => ∀ l, (∀ k < 2, s.mem.read (s.reg .r0 + BitVec.ofNat 16 k) ≠ 0) ∧
      State.mem { s with schedule := l } = s.mem ∧ s.mem.read (s.reg .r0 + BitVec.ofNat 16 2) = 0 ∧
      (s.putspText 2).length = 3 ∧ s.HostReliable ∧
      ∀ k ∈ [0, 2, 3], State.FailsFirstAt { s with schedule := failingAt k } k)
      (start 0x3000 [(0x0000, 0x4948), (0x0001, 0x21)]) :=
  fun _ => ⟨by decide, rfl, by decide, by decide, reliable_of_empty rfl, fun _ _ => failsFirstAt_of_schedule rfl⟩

theorem test_witness_ScanWithoutAZeroWordHangs : fullState.HostReliable ∧ ∀ a, fullState.mem.read a ≠ 0 :=
  ⟨reliable_of_empty rfl, fullMemory_nonzero _ (le_refl _)⟩

/-- A character queued, the host working, failing the echo, failing the last flush; none queued: still open, with a stop
request, ended; the first write, the first flush and the read failing. -/
theorem test_witness_InPromptsReadsAndEchoes :
    ((∀ l ∈ [[], List.replicate 21 .quiet ++ [failing], List.replicate 22 .quiet ++ [failing]],
        (fun s : State => (State.takeTurn^[s.cfg.inPrompt.length + 2] s).input = 0x61 :: [])
          { State.reset with input := [0x61], schedule := l }) ∧
      State.HostReliable { State.reset with input := [0x61] } ∧
      (fun s : State => s.FailsFirstAt (s.cfg.inPrompt.length + 2))
        { State.reset with input := [0x61], schedule := failingAt 21 } ∧
      (fun s : State => s.FailsFirstAt (s.cfg.inPrompt.length + 3))
        { State.reset with input := [0x61], schedule := failingAt 22 }) ∧
    (State.reset.HostReliable ∧ State.HostReliable { State.reset with stopRequested := true } ∧
      State.HostReliable { State.reset with inputEnded := true } ∧
      (fun s : State => s.input = [] ∧ s.inputEnded = false ∧ s.stopRequested = false)
        (State.takeTurn^[State.reset.cfg.inPrompt.length + 2] State.reset) ∧
      (fun s : State => s.input = [] ∧ s.inputEnded = false ∧ s.stopRequested = true)
        (State.takeTurn^[State.reset.cfg.inPrompt.length + 2] { State.reset with stopRequested := true }) ∧
      (fun s : State => s.input = [] ∧ s.inputEnded = true)
        (State.takeTurn^[State.reset.cfg.inPrompt.length + 2] { State.reset with inputEnded := true })) ∧
    ∀ k ∈ [0, 19, 20], (fun s : State => k ≤ s.cfg.inPrompt.length + 1 ∧ s.FailsFirstAt k)
      { State.reset with schedule := failingAt k } := by
  refine ⟨⟨by decide, reliable_of_empty rfl, failsFirstAt_of_schedule rfl, failsFirstAt_of_schedule rfl⟩,
    ⟨reliable_of_empty rfl, reliable_of_empty rfl, reliable_of_empty rfl, by decide, by decide, by decide⟩,
    fun k hk => ⟨?_, failsFirstAt_of_schedule rfl⟩⟩
  revert k
  decide

/-- The host works; it fails the first write; it fails the flush. -/
theorem test_witness_HaltAnnouncesAndHalts :
    State.reset.HostReliable ∧ ∀ k ∈ [0, 5], (fun s : State => k ≤ s.cfg.haltNotice.length ∧ s.FailsFirstAt k)
      { State.reset with schedule := failingAt k } := by
  refine ⟨reliable_of_empty rfl, fun k hk => ⟨?_, failsFirstAt_of_schedule rfl⟩⟩
  revert k
  decide

end Sys2Proof.Tests
end

section
/-! PROOFS of the scope family: the numbers that fields and characters stand for (R16). -/

namespace Sys2Proof.Machine

/-- A field no wider than a Word keeps its two's-complement value when it is extended (R16). -/
theorem toInt_sext {n : Nat} (v : BitVec n) (h : n ≤ 16) : (sext v).toInt = v.toInt :=
  BitVec.toInt_signExtend_of_le h

/-- A character's 8 bits fit in a Word, so zero extension cuts nothing off (R16). -/
theorem toNat_zext8 (c : Byte) : (zext8 c).toNat = c.toNat :=
  BitVec.toNat_setWidth_of_le (by decide)

/-- Settles O6: every width the instructions use is at most 16. -/
theorem extensionKeepsTheNumber : Obligations.ExtensionKeepsTheNumber := by
  unfold Obligations.ExtensionKeepsTheNumber
  refine ⟨fun n v hn => ?_, toNat_zext8⟩
  have widths_le : ∀ w ∈ [5, 6, 9, 11], w ≤ 16 := by decide
  exact toInt_sext v (widths_le n hn)

end Sys2Proof.Machine
end

section
/-! PROOFS of the state family: what a boot with an image holds (R38, R210). -/

namespace Sys2Proof.Machine

/-- An image sets no register: they are zero after every boot (R38). -/
@[simp] theorem State.boot_reg (image : Memory) (r : Reg) : (State.boot image).reg r = 0x0000 := by
  cases r <;> rfl

@[simp] theorem State.boot_mem (image : Memory) : (State.boot image).mem = image := rfl
@[simp] theorem State.boot_pc (image : Memory) : (State.boot image).pc = 0x3000 := rfl
@[simp] theorem State.boot_cond (image : Memory) : (State.boot image).cond = .zero := rfl
@[simp] theorem State.boot_runState (image : Memory) : (State.boot image).runState = .running := rfl
@[simp] theorem State.boot_faultCause (image : Memory) : (State.boot image).faultCause = .none := rfl
@[simp] theorem State.boot_output (image : Memory) : (State.boot image).output = [] := rfl

/-- Settles O7, field by field: memory is the image, and every other field is that of `State.reset`. -/
theorem resetLeavesTheSpecsValues : Obligations.ResetLeavesTheSpecsValues := by
  unfold Obligations.ResetLeavesTheSpecsValues
  intro image
  have cond_bits : (State.boot image).cond.bits = 0b010 := by rw [State.boot_cond]; rfl
  have cause_code : (State.boot image).faultCause.code = 0 := by rw [State.boot_faultCause]; rfl
  have mem_read : ∀ a, (State.boot image).mem.read a = image.read a := by simp
  exact ⟨State.boot_reg image, State.boot_pc image, State.boot_cond image, cond_bits, mem_read,
    State.boot_runState image, State.boot_faultCause image, cause_code, State.boot_output image⟩

end Sys2Proof.Machine
end

section
/-! PROOFS of the ALU family: the words of ADD, AND and NOT (R82, R84, R85), and what the five instructions compute (R110 to
R114). -/

namespace Sys2Proof

/-! ## Decoding, by opcode and format -/

/-- The opcode of ADD leaves the choice of the mode to `ir[5]` (R85). -/
theorem decodeWord_of_opcode_add {w : Word} (h : fieldOpcode w = 1) :
    decodeWord w = if w.getLsbD 5 then .addImm (fieldDr w) (fieldSr1 w) (fieldImm5 w)
      else .addReg (fieldDr w) (fieldSr1 w) (fieldSr2 w) := by
  rw [decodeWord, h]; rfl

/-- The opcode of AND leaves the choice of the mode to `ir[5]` (R85). -/
theorem decodeWord_of_opcode_and {w : Word} (h : fieldOpcode w = 5) :
    decodeWord w = if w.getLsbD 5 then .andImm (fieldDr w) (fieldSr1 w) (fieldImm5 w)
      else .andReg (fieldDr w) (fieldSr1 w) (fieldSr2 w) := by
  rw [decodeWord, h]; rfl

theorem decodeWord_of_opcode_not {w : Word} (h : fieldOpcode w = 9) :
    decodeWord w = .not (fieldDr w) (fieldSr1 w) := by
  rw [decodeWord, h]; rfl

theorem decodeWord_formatRRR_add (dr sr1 : Reg) (dc : BitVec 2) (sr2 : Reg) :
    decodeWord (formatRRR 0x1 dr sr1 dc sr2) = .addReg dr sr1 sr2 := by
  obtain ⟨opcode, hdr, hsr1, mode, hsr2⟩ := formatRRR_fields 0x1 dr sr1 dc sr2
  rw [decodeWord_of_opcode_add opcode, mode, if_neg Bool.false_ne_true, hdr, hsr1, hsr2]

theorem decodeWord_formatRRI_add (dr sr1 : Reg) (imm : BitVec 5) :
    decodeWord (formatRRI 0x1 dr sr1 imm) = .addImm dr sr1 imm := by
  obtain ⟨opcode, hdr, hsr1, mode, himm⟩ := formatRRI_fields 0x1 dr sr1 imm
  rw [decodeWord_of_opcode_add opcode, mode, if_pos rfl, hdr, hsr1, himm]

theorem decodeWord_formatRRR_and (dr sr1 : Reg) (dc : BitVec 2) (sr2 : Reg) :
    decodeWord (formatRRR 0x5 dr sr1 dc sr2) = .andReg dr sr1 sr2 := by
  obtain ⟨opcode, hdr, hsr1, mode, hsr2⟩ := formatRRR_fields 0x5 dr sr1 dc sr2
  rw [decodeWord_of_opcode_and opcode, mode, if_neg Bool.false_ne_true, hdr, hsr1, hsr2]

theorem decodeWord_formatRRI_and (dr sr1 : Reg) (imm : BitVec 5) :
    decodeWord (formatRRI 0x5 dr sr1 imm) = .andImm dr sr1 imm := by
  obtain ⟨opcode, hdr, hsr1, mode, himm⟩ := formatRRI_fields 0x5 dr sr1 imm
  rw [decodeWord_of_opcode_and opcode, mode, if_pos rfl, hdr, hsr1, himm]

theorem decodeWord_formatRR (dr sr1 : Reg) (dc : BitVec 6) : decodeWord (formatRR dr sr1 dc) = .not dr sr1 := by
  obtain ⟨opcode, hdr, hsr1⟩ := formatRR_fields dr sr1 dc
  rw [decodeWord_of_opcode_not opcode, hdr, hsr1]

end Sys2Proof

namespace Sys2Proof.Machine

/-! ## The five instructions: the value each writes to DR, in the model's own operations -/

theorem exec_addReg (dr sr1 sr2 : Reg) (s : State) :
    exec (.addReg dr sr1 sr2) s = .next (s.afterResult dr (s.reg sr1 + s.reg sr2)) :=
  congrArg Host.Outcome.next (s.setRegCc_eq_afterResult dr _)

theorem exec_addImm (dr sr1 : Reg) (imm : BitVec 5) (s : State) :
    exec (.addImm dr sr1 imm) s = .next (s.afterResult dr (s.reg sr1 + sext imm)) :=
  congrArg Host.Outcome.next (s.setRegCc_eq_afterResult dr _)

theorem exec_andReg (dr sr1 sr2 : Reg) (s : State) :
    exec (.andReg dr sr1 sr2) s = .next (s.afterResult dr (s.reg sr1 &&& s.reg sr2)) :=
  congrArg Host.Outcome.next (s.setRegCc_eq_afterResult dr _)

theorem exec_andImm (dr sr1 : Reg) (imm : BitVec 5) (s : State) :
    exec (.andImm dr sr1 imm) s = .next (s.afterResult dr (s.reg sr1 &&& sext imm)) :=
  congrArg Host.Outcome.next (s.setRegCc_eq_afterResult dr _)

theorem exec_not (dr sr1 : Reg) (s : State) : exec (.not dr sr1) s = .next (s.afterResult dr (~~~s.reg sr1)) :=
  congrArg Host.Outcome.next (s.setRegCc_eq_afterResult dr _)

/-! ## The obligations: the same values as numbers -/

/-- Settles O35: addition of words is addition of their numbers modulo 2^16. -/
theorem addRegisterSetsTheSum : Obligations.AddRegisterSetsTheSum := by
  unfold Obligations.AddRegisterSetsTheSum
  intro dr sr1 sr2 s
  have sum_mod : BitVec.ofNat 16 ((s.reg sr1).toNat + (s.reg sr2).toNat) = s.reg sr1 + s.reg sr2 := by
    simp [BitVec.ofNat_add]
  refine ⟨fun dc => decodeWord_formatRRR_add dr sr1 dc sr2, ?_⟩
  rw [exec_addReg, sum_mod]

/-- Settles O36: adding the sign-extended immediate adds the number it stands for. -/
theorem addImmediateSetsTheSum : Obligations.AddImmediateSetsTheSum := by
  unfold Obligations.AddImmediateSetsTheSum
  intro dr sr1 imm s
  refine ⟨decodeWord_formatRRI_add dr sr1 imm, ?_⟩
  rw [exec_addImm, add_sext (s.reg sr1) imm (by decide)]

/-- Settles O37: the model's own operation is the rule's. -/
theorem andRegisterSetsTheConjunction : Obligations.AndRegisterSetsTheConjunction := by
  unfold Obligations.AndRegisterSetsTheConjunction
  intro dr sr1 sr2 s
  exact ⟨fun dc => decodeWord_formatRRR_and dr sr1 dc sr2, exec_andReg dr sr1 sr2 s⟩

/-- Settles O38: the mask is the 16-bit word of the immediate's two's-complement number. -/
theorem andImmediateSetsTheConjunction : Obligations.AndImmediateSetsTheConjunction := by
  unfold Obligations.AndImmediateSetsTheConjunction
  intro dr sr1 imm s
  refine ⟨decodeWord_formatRRI_and dr sr1 imm, ?_⟩
  rw [exec_andImm, sext_eq_ofInt imm (by decide)]

/-- Settles O39: the complement of a word is its difference from 0xFFFF. -/
theorem notSetsTheComplement : Obligations.NotSetsTheComplement := by
  unfold Obligations.NotSetsTheComplement
  intro dr sr1 s
  refine ⟨decodeWord_formatRR dr sr1, ?_⟩
  rw [exec_not, not_eq]

end Sys2Proof.Machine
end

section
/-! PROOFS of the control family: the words of BR, JMP, JSR and JSRR (R82, R84, R85), and where the four instructions go
(R121 to R124). -/

namespace Sys2Proof

/-! ## Decoding, by opcode and format -/

theorem decodeWord_of_opcode_br {w : Word} (h : fieldOpcode w = 0) :
    decodeWord w = .br (w.getLsbD 11) (w.getLsbD 10) (w.getLsbD 9) (fieldPcOffset9 w) := by
  rw [decodeWord, h]; rfl

theorem decodeWord_of_opcode_jmp {w : Word} (h : fieldOpcode w = 12) : decodeWord w = .jmp (fieldSr1 w) := by
  rw [decodeWord, h]; rfl

/-- Opcode 4 leaves the choice between JSR and JSRR to `ir[11]` (R85). -/
theorem decodeWord_of_opcode_jsr {w : Word} (h : fieldOpcode w = 4) :
    decodeWord w = if w.getLsbD 11 then .jsr (fieldPcOffset11 w) else .jsrr (fieldSr1 w) := by
  rw [decodeWord, h]; rfl

theorem decodeWord_formatBR (n z p : Bool) (off : BitVec 9) : decodeWord (formatBR n z p off) = .br n z p off := by
  obtain ⟨opcode, hn, hz, hp, hoff⟩ := formatBR_fields n z p off
  rw [decodeWord_of_opcode_br opcode, hn, hz, hp, hoff]

theorem decodeWord_formatB (dc : BitVec 3) (base : Reg) (dc' : BitVec 6) :
    decodeWord (formatB dc base dc') = .jmp base := by
  obtain ⟨opcode, hbase⟩ := formatB_fields dc base dc'
  rw [decodeWord_of_opcode_jmp opcode, hbase]

theorem decodeWord_formatJ11 (off : BitVec 11) : decodeWord (formatJ11 off) = .jsr off := by
  obtain ⟨opcode, mode, hoff⟩ := formatJ11_fields off
  rw [decodeWord_of_opcode_jsr opcode, mode, if_pos rfl, hoff]

theorem decodeWord_formatJB (dc : BitVec 2) (base : Reg) (dc' : BitVec 6) :
    decodeWord (formatJB dc base dc') = .jsrr base := by
  obtain ⟨opcode, mode, hbase⟩ := formatJB_fields dc base dc'
  rw [decodeWord_of_opcode_jsr opcode, mode, if_neg Bool.false_ne_true, hbase]

end Sys2Proof

namespace Sys2Proof.Machine

/-! ## Targets and the branch condition -/

theorem State.pcRel9_eq_displaced (s : State) (off : BitVec 9) : s.pcRel9 off = displaced s.pc off :=
  add_sext s.pc off (by decide)

theorem State.pcRel11_eq_displaced (s : State) (off : BitVec 11) : s.pcRel11 off = displaced s.pc off :=
  add_sext s.pc off (by decide)

/-- The flag is one-hot (R26), so the AND with it keeps the one mask bit that names it. -/
theorem State.brTaken_iff (n z p : Bool) (s : State) :
    s.brTaken (BitVec.ofBool n ++ BitVec.ofBool z ++ BitVec.ofBool p) = true ↔
      (n = true ∧ s.cond = .negative) ∨ (z = true ∧ s.cond = .zero) ∨ (p = true ∧ s.cond = .positive) := by
  rw [State.brTaken]
  cases s.cond with
  | negative => revert n z p; decide
  | zero => revert n z p; decide
  | positive => revert n z p; decide

/-! ## The four instructions, in the model's own operations -/

/-- The two outcomes of BR differ in `pc` alone. -/
theorem exec_br (n z p : Bool) (off : BitVec 9) (s : State) :
    exec (.br n z p off) s = .next { s with
      pc := if s.brTaken (BitVec.ofBool n ++ BitVec.ofBool z ++ BitVec.ofBool p) then s.pcRel9 off else s.pc } := by
  change execBr n z p off s = _
  unfold execBr
  split <;> rfl

theorem exec_jmp (base : Reg) (s : State) : exec (.jmp base) s = .next { s with pc := s.reg base } := rfl

theorem exec_jsr (off : BitVec 11) (s : State) : exec (.jsr off) s = .next { s.link with pc := s.pcRel11 off } := rfl

/-- The base register is read in the state that has the link (R124). -/
theorem exec_jsrr (base : Reg) (s : State) : exec (.jsrr base) s = .next { s.link with pc := s.link.reg base } := rfl

/-- The link followed by a jump writes R7 and `pc`, and nothing else. -/
theorem State.link_with_pc (s : State) (target : Word) :
    { s.link with pc := target } = { s with regs := s.regs.set .r7 s.pc, pc := target } := rfl

/-! ## The obligations: the targets as the rules give them -/

/-- Settles O40: the mask selects the flag that is set, and the target is the displaced incremented `pc`. -/
theorem branchIsTakenWhenTheMaskNamesTheFlag : Obligations.BranchIsTakenWhenTheMaskNamesTheFlag := by
  unfold Obligations.BranchIsTakenWhenTheMaskNamesTheFlag
  intro n z p off s
  refine ⟨decodeWord_formatBR n z p off, ?_⟩
  simp only [exec_br, State.brTaken_iff, State.pcRel9_eq_displaced]

/-- Settles O41: R7 is a base register like any other, so RET needs no case of its own. -/
theorem jumpGoesWhereTheBaseRegisterSays : Obligations.JumpGoesWhereTheBaseRegisterSays := by
  unfold Obligations.JumpGoesWhereTheBaseRegisterSays
  intro base s
  exact ⟨fun dc dc' => decodeWord_formatB dc base dc', exec_jmp base s⟩

/-- Settles O42: link and target both come from the incremented `pc`. -/
theorem jsrLinksAndJumps : Obligations.JsrLinksAndJumps := by
  unfold Obligations.JsrLinksAndJumps
  intro off s
  refine ⟨decodeWord_formatJ11 off, ?_⟩
  rw [exec_jsr, State.link_with_pc, State.pcRel11_eq_displaced]

/-- Settles O43: a read after the link gives the link for R7 and the old value for every other register. -/
theorem jsrrLinksBeforeItReadsTheBase : Obligations.JsrrLinksBeforeItReadsTheBase := by
  unfold Obligations.JsrrLinksBeforeItReadsTheBase
  intro base s
  refine ⟨fun dc dc' => decodeWord_formatJB dc base dc', ?_⟩
  rw [exec_jsrr, State.link_with_pc, State.reg_link]

end Sys2Proof.Machine
end

section
/-! PROOFS of the load family: the words of LD, LDR and LEA (R82, R84), and what the three instructions load (R130, R132,
R133, R135). -/

namespace Sys2Proof

/-! ## Decoding, by opcode and format -/

theorem decodeWord_of_opcode_ld {w : Word} (h : fieldOpcode w = 2) :
    decodeWord w = .ld (fieldDr w) (fieldPcOffset9 w) := by
  rw [decodeWord, h]; rfl

theorem decodeWord_of_opcode_ldr {w : Word} (h : fieldOpcode w = 6) :
    decodeWord w = .ldr (fieldDr w) (fieldSr1 w) (fieldOffset6 w) := by
  rw [decodeWord, h]; rfl

theorem decodeWord_of_opcode_lea {w : Word} (h : fieldOpcode w = 14) :
    decodeWord w = .lea (fieldDr w) (fieldPcOffset9 w) := by
  rw [decodeWord, h]; rfl

theorem decodeWord_formatRP9_ld (dr : Reg) (off : BitVec 9) : decodeWord (formatRP9 0x2 dr off) = .ld dr off := by
  obtain ⟨opcode, hdr, hoff⟩ := formatRP9_fields 0x2 dr off
  rw [decodeWord_of_opcode_ld opcode, hdr, hoff]

theorem decodeWord_formatRB6_ldr (dr base : Reg) (off : BitVec 6) :
    decodeWord (formatRB6 0x6 dr base off) = .ldr dr base off := by
  obtain ⟨opcode, hdr, hbase, hoff⟩ := formatRB6_fields 0x6 dr base off
  rw [decodeWord_of_opcode_ldr opcode, hdr, hbase, hoff]

theorem decodeWord_formatRP9_lea (dr : Reg) (off : BitVec 9) : decodeWord (formatRP9 0xE dr off) = .lea dr off := by
  obtain ⟨opcode, hdr, hoff⟩ := formatRP9_fields 0xE dr off
  rw [decodeWord_of_opcode_lea opcode, hdr, hoff]

end Sys2Proof

namespace Sys2Proof.Machine

/-! ## The end of a load, as statements write it (R135) -/

theorem loadInto_eq_afterResult {s t : State} {a v : Word} (dr : Reg) (h : s.memRead a = .ok v t) :
    s.loadInto dr a = t.afterResult dr v := by
  rw [loadInto_of_ok dr h, State.setRegCc_eq_afterResult]

theorem loadInto_eq_afterFault {s t : State} {a : Word} (dr : Reg) (h : s.memRead a = .failed t) :
    s.loadInto dr a = t.afterFault .hostIOFailure := by
  rw [loadInto_of_failed dr h, State.raise_eq_afterFault]

/-- Only a read of KBSR polls, so any other load gives the word of memory and cannot fail (R50). -/
theorem loadInto_of_ne {s : State} {a : Word} (dr : Reg) (h : a ≠ kbsrAddr) :
    s.loadInto dr a = s.afterResult dr (s.mem.read a) :=
  loadInto_eq_afterResult dr (memRead_of_ne h)

/-- The ways a load can end: without a poll, after the poll, and when the poll fails. -/
theorem loadInto_outcomes (s : State) (dr : Reg) (a : Word) :
    (a ≠ kbsrAddr → s.loadInto dr a = s.afterResult dr (s.mem.read a)) ∧
    (∀ v t, s.memRead a = .ok v t → s.loadInto dr a = t.afterResult dr v) ∧
    (∀ t, s.memRead a = .failed t → s.loadInto dr a = t.afterFault .hostIOFailure) :=
  ⟨loadInto_of_ne dr, fun _ _ => loadInto_eq_afterResult dr, fun _ => loadInto_eq_afterFault dr⟩

/-! ## The three instructions, with their addresses as the rules give them (R134) -/

theorem State.baseOffset_eq_displaced (s : State) (base : Reg) (off : BitVec 6) :
    s.baseOffset base off = displaced (s.reg base) off :=
  add_sext (s.reg base) off (by decide)

theorem exec_ld (dr : Reg) (off : BitVec 9) (s : State) :
    exec (.ld dr off) s = .next (s.loadInto dr (displaced s.pc off)) := by
  rw [← State.pcRel9_eq_displaced]; rfl

theorem exec_ldr (dr base : Reg) (off : BitVec 6) (s : State) :
    exec (.ldr dr base off) s = .next (s.loadInto dr (displaced (s.reg base) off)) := by
  rw [← State.baseOffset_eq_displaced]; rfl

/-- LEA writes the address itself: it calls no `MemRead` (R133). -/
theorem exec_lea (dr : Reg) (off : BitVec 9) (s : State) :
    exec (.lea dr off) s = .next (s.afterResult dr (displaced s.pc off)) := by
  rw [← State.pcRel9_eq_displaced, ← State.setRegCc_eq_afterResult]; rfl

/-! ## The obligations -/

/-- Settles O44: LD is a load from the displaced incremented `pc`, and the clauses are the ways a load ends. -/
theorem ldLoadsPcRelative : Obligations.LdLoadsPcRelative := by
  unfold Obligations.LdLoadsPcRelative
  intro dr off s
  simp only [exec_ld, Host.Outcome.next.injEq]
  exact ⟨decodeWord_formatRP9_ld dr off, loadInto_outcomes s dr _⟩

/-- Settles O46: LDR is a load from the displaced base register, and the clauses are the ways a load ends. -/
theorem ldrLoadsBasePlusOffset : Obligations.LdrLoadsBasePlusOffset := by
  unfold Obligations.LdrLoadsBasePlusOffset
  intro dr base off s
  simp only [exec_ldr, Host.Outcome.next.injEq]
  exact ⟨decodeWord_formatRB6_ldr dr base off, loadInto_outcomes s dr _⟩

/-- Settles O47: the result is the address, whatever memory holds there. -/
theorem leaGivesTheAddressAndSetsTheFlags : Obligations.LeaGivesTheAddressAndSetsTheFlags := by
  unfold Obligations.LeaGivesTheAddressAndSetsTheFlags
  intro dr off s
  exact ⟨decodeWord_formatRP9_lea dr off, exec_lea dr off s⟩

end Sys2Proof.Machine
end

section
/-! PROOFS of the store family: the words of ST, STI and STR (R82, R84), and what the three instructions store (R140 to
R143). -/

namespace Sys2Proof

/-! ## Decoding, by opcode and format -/

theorem decodeWord_of_opcode_st {w : Word} (h : fieldOpcode w = 3) :
    decodeWord w = .st (fieldDr w) (fieldPcOffset9 w) := by
  rw [decodeWord, h]; rfl

theorem decodeWord_of_opcode_str {w : Word} (h : fieldOpcode w = 7) :
    decodeWord w = .str (fieldDr w) (fieldSr1 w) (fieldOffset6 w) := by
  rw [decodeWord, h]; rfl

theorem decodeWord_of_opcode_sti {w : Word} (h : fieldOpcode w = 11) :
    decodeWord w = .sti (fieldDr w) (fieldPcOffset9 w) := by
  rw [decodeWord, h]; rfl

theorem decodeWord_formatRP9_st (sr : Reg) (off : BitVec 9) : decodeWord (formatRP9 0x3 sr off) = .st sr off := by
  obtain ⟨opcode, hsr, hoff⟩ := formatRP9_fields 0x3 sr off
  rw [decodeWord_of_opcode_st opcode, hsr, hoff]

theorem decodeWord_formatRB6_str (sr base : Reg) (off : BitVec 6) :
    decodeWord (formatRB6 0x7 sr base off) = .str sr base off := by
  obtain ⟨opcode, hsr, hbase, hoff⟩ := formatRB6_fields 0x7 sr base off
  rw [decodeWord_of_opcode_str opcode, hsr, hbase, hoff]

theorem decodeWord_formatRP9_sti (sr : Reg) (off : BitVec 9) : decodeWord (formatRP9 0xB sr off) = .sti sr off := by
  obtain ⟨opcode, hsr, hoff⟩ := formatRP9_fields 0xB sr off
  rw [decodeWord_of_opcode_sti opcode, hsr, hoff]

end Sys2Proof

namespace Sys2Proof.Machine

/-! ## The end of a store, as statements write it (R143) -/

/-- A `MemWrite` sets the word at its address and leaves every other word and everything but memory alone (R52, R54). -/
theorem State.memWrite_sets_one_word (s : State) (a v : Word) :
    s.memWrite a v = { s with mem := (s.memWrite a v).mem } ∧ (s.memWrite a v).mem.read a = v ∧
      ∀ b, b ≠ a → (s.memWrite a v).mem.read b = s.mem.read b := by
  refine ⟨rfl, ?_, fun b hb => ?_⟩
  · rw [State.memWrite_mem, Memory.read_write, if_pos rfl]
  · rw [State.memWrite_mem, Memory.read_write, if_neg hb]

/-! ## The three instructions, with their addresses as the rules give them (R134) -/

theorem exec_st (sr : Reg) (off : BitVec 9) (s : State) :
    exec (.st sr off) s = .next (s.memWrite (displaced s.pc off) (s.reg sr)) := by
  rw [← State.pcRel9_eq_displaced]; rfl

theorem exec_str (sr base : Reg) (off : BitVec 6) (s : State) :
    exec (.str sr base off) s = .next (s.memWrite (displaced (s.reg base) off) (s.reg sr)) := by
  rw [← State.baseOffset_eq_displaced]; rfl

/-- The pointer read writes no register, so the value stored is what SR held before it. -/
theorem exec_sti_of_ok {s t : State} {sr : Reg} {off : BitVec 9} {p : Word}
    (h : s.memRead (displaced s.pc off) = .ok p t) : exec (.sti sr off) s = .next (t.memWrite p (s.reg sr)) := by
  obtain ⟨-, same, -⟩ := memRead_ok h
  rw [← State.pcRel9_eq_displaced] at h
  simp only [exec, execSti, h, same.reg]

theorem exec_sti_of_failed {s t : State} {sr : Reg} {off : BitVec 9}
    (h : s.memRead (displaced s.pc off) = .failed t) :
    exec (.sti sr off) s = .next (t.afterFault .hostIOFailure) := by
  rw [← State.pcRel9_eq_displaced] at h
  simp only [exec, execSti, h, State.raise_eq_afterFault]

/-! ## The obligations -/

/-- Settles O48: ST is one `MemWrite` at the displaced incremented `pc`. -/
theorem stStoresPcRelative : Obligations.StStoresPcRelative := by
  unfold Obligations.StStoresPcRelative
  intro sr off s
  exact ⟨decodeWord_formatRP9_st sr off, _, exec_st sr off s, s.memWrite_sets_one_word _ _⟩

/-- Settles O49: STI is one `MemWrite` at the pointer, in the state the pointer read leaves; a read of any address but
KBSR leaves the state it found. -/
theorem stiStoresThroughOnePointer : Obligations.StiStoresThroughOnePointer := by
  unfold Obligations.StiStoresThroughOnePointer
  intro sr off s
  refine ⟨decodeWord_formatRP9_sti sr off, fun hne => ?plain, fun p t hok => ?read, fun t hfail => ?failed⟩
  case plain => exact ⟨_, exec_sti_of_ok (memRead_of_ne hne), s.memWrite_sets_one_word _ _⟩
  case read => exact ⟨_, exec_sti_of_ok hok, t.memWrite_sets_one_word p _⟩
  case failed => exact exec_sti_of_failed hfail

/-- Settles O50: STR is one `MemWrite` at the displaced base register. -/
theorem strStoresBasePlusOffset : Obligations.StrStoresBasePlusOffset := by
  unfold Obligations.StrStoresBasePlusOffset
  intro sr base off s
  exact ⟨decodeWord_formatRB6_str sr base off, _, exec_str sr base off s, s.memWrite_sets_one_word _ _⟩

end Sys2Proof.Machine
end

section
/-! PROOFS of the trap family: TRAP with a vector that has no service (R150, R151, R158). -/

namespace Sys2Proof.Machine

/-! ## The gateway, for a vector outside the services' range -/

theorem exec_trap (v : BitVec 8) (s : State) : exec (.trap v) s = .next (s.link.trapDispatch v) := rfl

/-- The link writes R7, and nothing else. -/
theorem State.link_eq (s : State) : s.link = { s with regs := s.regs.set .r7 s.pc } := rfl

/-- Every vector with a service lies in 0x20 to 0x25 (R151), so a vector outside that range reaches the last arm (R158). -/
theorem State.trapDispatch_of_undefined (s : State) {v : BitVec 8} (h : v.toNat < 0x20 ∨ 0x25 < v.toNat) :
    s.trapDispatch v = s.afterFault .undefinedTrapVector := by
  unfold State.trapDispatch
  split
  case h_7 => exact s.raise_eq_afterFault .undefinedTrapVector
  all_goals omega

/-! ## The obligation -/

/-- Settles O52: the link is written before dispatch, and dispatch raises the fault in the state that has it. -/
theorem undefinedVectorIsFatal : Obligations.UndefinedVectorIsFatal := by
  unfold Obligations.UndefinedVectorIsFatal
  intro v s undefined
  have cause_code : FaultCause.undefinedTrapVector.code = 2 := rfl
  refine ⟨?_, cause_code⟩
  rw [exec_trap, State.trapDispatch_of_undefined _ undefined, State.link_eq]

end Sys2Proof.Machine
end

section
/-! PROOFS of the undefined family: the words of RTI and of the reserved opcode (R82, R86), and the fatal error both raise
(R170, R171). -/

namespace Sys2Proof

/-! ## Decoding, by opcode and format -/

theorem decodeWord_of_opcode_rti {w : Word} (h : fieldOpcode w = 8) : decodeWord w = .rti := by
  rw [decodeWord, h]; rfl

theorem decodeWord_of_opcode_res {w : Word} (h : fieldOpcode w = 13) : decodeWord w = .res := by
  rw [decodeWord, h]; rfl

theorem decodeWord_formatX_rti (dc : BitVec 12) : decodeWord (formatX 0x8 dc) = .rti :=
  decodeWord_of_opcode_rti (formatX_fields 0x8 dc)

theorem decodeWord_formatX_res (dc : BitVec 12) : decodeWord (formatX 0xD dc) = .res :=
  decodeWord_of_opcode_res (formatX_fields 0xD dc)

end Sys2Proof

namespace Sys2Proof.Machine

/-! ## The two instructions -/

theorem exec_rti (s : State) : exec .rti s = .next (s.afterFault .undefinedOpcode) := by
  rw [← State.raise_eq_afterFault]; rfl

theorem exec_res (s : State) : exec .res s = .next (s.afterFault .undefinedOpcode) := by
  rw [← State.raise_eq_afterFault]; rfl

/-! ## The obligation -/

/-- Settles O60: the opcode field alone selects the row, and either row raises the fault in the state it finds. -/
theorem undefinedOpcodesAreFatal : Obligations.UndefinedOpcodesAreFatal := by
  unfold Obligations.UndefinedOpcodesAreFatal
  intro s
  have cause_code : FaultCause.undefinedOpcode.code = 1 := rfl
  exact ⟨decodeWord_formatX_rti, decodeWord_formatX_res, exec_rti s, exec_res s, cause_code⟩

end Sys2Proof.Machine
end

section
/-! PROOFS of the other family, encoding: every word and every instruction, through the fields of the formats (R82, R84, R88,
R89). -/

namespace Sys2Proof

/-! ## Decoding, by opcode and format: LDI and TRAP -/

theorem decodeWord_of_opcode_ldi {w : Word} (h : fieldOpcode w = 10) :
    decodeWord w = .ldi (fieldDr w) (fieldPcOffset9 w) := by
  rw [decodeWord, h]; rfl

/-- The opcode of TRAP leaves the row to the vector (R151). -/
theorem decodeWord_of_opcode_trap {w : Word} (h : fieldOpcode w = 15) :
    decodeWord w = decodeTrap (fieldVector w) := by
  rw [decodeWord, h]; rfl

theorem decodeWord_formatRP9_ldi (dr : Reg) (off : BitVec 9) : decodeWord (formatRP9 0xA dr off) = .ldi dr off := by
  obtain ⟨opcode, hdr, hoff⟩ := formatRP9_fields 0xA dr off
  rw [decodeWord_of_opcode_ldi opcode, hdr, hoff]

theorem decodeWord_formatT (dc : BitVec 4) (v : BitVec 8) : decodeWord (formatT dc v) = decodeTrap v := by
  obtain ⟨opcode, hv⟩ := formatT_fields dc v
  rw [decodeWord_of_opcode_trap opcode, hv]

theorem decodeTrap_of_not_defined {v : BitVec 8} (h : definedVector v = false) : decodeTrap v = .trap v := by
  rcases decodeTrap_cases v with ⟨hv, -⟩ | ⟨-, ht⟩
  · rw [h] at hv; cases hv
  · exact ht

/-! ## The round trip -/

/-- Every row decodes from its canonical word (R88): the don't-care bits the encoder chooses do not matter. -/
theorem decodeWord_encodeWord {i : Instr} (h : i.wellFormed = true) : decodeWord (encodeWord i) = i := by
  cases i with
  | br n z p off => exact decodeWord_formatBR n z p off
  | addReg dr sr1 sr2 => exact decodeWord_formatRRR_add dr sr1 0 sr2
  | addImm dr sr1 imm => exact decodeWord_formatRRI_add dr sr1 imm
  | ld dr off => exact decodeWord_formatRP9_ld dr off
  | st sr off => exact decodeWord_formatRP9_st sr off
  | jsr off => exact decodeWord_formatJ11 off
  | jsrr base => exact decodeWord_formatJB 0 base 0
  | andReg dr sr1 sr2 => exact decodeWord_formatRRR_and dr sr1 0 sr2
  | andImm dr sr1 imm => exact decodeWord_formatRRI_and dr sr1 imm
  | ldr dr base off => exact decodeWord_formatRB6_ldr dr base off
  | str sr base off => exact decodeWord_formatRB6_str sr base off
  | rti => exact decodeWord_formatX_rti 0
  | not dr sr1 => exact decodeWord_formatRR dr sr1 0x3F
  | ldi dr off => exact decodeWord_formatRP9_ldi dr off
  | sti sr off => exact decodeWord_formatRP9_sti sr off
  | jmp base => exact decodeWord_formatB 0 base 0
  | res => exact decodeWord_formatX_res 0
  | lea dr off => exact decodeWord_formatRP9_lea dr off
  | trap v =>
    have undefined : definedVector v = false := by simpa [Instr.wellFormed] using h
    exact (decodeWord_formatT 0 v).trans (decodeTrap_of_not_defined undefined)
  | getc => exact decodeWord_formatT 0 0x20
  | out => exact decodeWord_formatT 0 0x21
  | puts => exact decodeWord_formatT 0 0x22
  | inChar => exact decodeWord_formatT 0 0x23
  | putsp => exact decodeWord_formatT 0 0x24
  | halt => exact decodeWord_formatT 0 0x25

/-- The decoder puts the two bytes of a word together again and leaves the bytes that follow. -/
theorem decode_wordBytes (w : Word) (rest : List Byte) : decode (wordBytes w ++ rest) = .ok (decodeWord w, rest) := by
  have joined : w.extractLsb' 8 8 ++ w.extractLsb' 0 8 = w := Machine.highByte_append_lowByte w
  simp only [wordBytes, List.cons_append, List.nil_append, decode, joined]

/-- Settles O1: the bytes make the encoded word again, and each row decodes from its format. -/
theorem decodeEncodeRoundTrip : Obligations.DecodeEncodeRoundTrip := by
  unfold Obligations.DecodeEncodeRoundTrip
  intro i rest wellFormed
  rw [encode, decode_wordBytes, decodeWord_encodeWord wellFormed]

/-! ## The row a word decodes to -/

/-- The instruction of a word by its opcode and mode bits (R84, R85, R89). -/
inductive DecodesTo (w : Word) : Instr → Prop where
  | br (opcode : fieldOpcode w = 0) :
      DecodesTo w (.br (w.getLsbD 11) (w.getLsbD 10) (w.getLsbD 9) (fieldPcOffset9 w))
  | addReg (opcode : fieldOpcode w = 1) (mode : w.getLsbD 5 = false) :
      DecodesTo w (.addReg (fieldDr w) (fieldSr1 w) (fieldSr2 w))
  | addImm (opcode : fieldOpcode w = 1) (mode : w.getLsbD 5 = true) :
      DecodesTo w (.addImm (fieldDr w) (fieldSr1 w) (fieldImm5 w))
  | ld (opcode : fieldOpcode w = 2) : DecodesTo w (.ld (fieldDr w) (fieldPcOffset9 w))
  | st (opcode : fieldOpcode w = 3) : DecodesTo w (.st (fieldDr w) (fieldPcOffset9 w))
  | jsr (opcode : fieldOpcode w = 4) (mode : w.getLsbD 11 = true) : DecodesTo w (.jsr (fieldPcOffset11 w))
  | jsrr (opcode : fieldOpcode w = 4) (mode : w.getLsbD 11 = false) : DecodesTo w (.jsrr (fieldSr1 w))
  | andReg (opcode : fieldOpcode w = 5) (mode : w.getLsbD 5 = false) :
      DecodesTo w (.andReg (fieldDr w) (fieldSr1 w) (fieldSr2 w))
  | andImm (opcode : fieldOpcode w = 5) (mode : w.getLsbD 5 = true) :
      DecodesTo w (.andImm (fieldDr w) (fieldSr1 w) (fieldImm5 w))
  | ldr (opcode : fieldOpcode w = 6) : DecodesTo w (.ldr (fieldDr w) (fieldSr1 w) (fieldOffset6 w))
  | str (opcode : fieldOpcode w = 7) : DecodesTo w (.str (fieldDr w) (fieldSr1 w) (fieldOffset6 w))
  | rti (opcode : fieldOpcode w = 8) : DecodesTo w .rti
  | not (opcode : fieldOpcode w = 9) : DecodesTo w (.not (fieldDr w) (fieldSr1 w))
  | ldi (opcode : fieldOpcode w = 10) : DecodesTo w (.ldi (fieldDr w) (fieldPcOffset9 w))
  | sti (opcode : fieldOpcode w = 11) : DecodesTo w (.sti (fieldDr w) (fieldPcOffset9 w))
  | jmp (opcode : fieldOpcode w = 12) : DecodesTo w (.jmp (fieldSr1 w))
  | res (opcode : fieldOpcode w = 13) : DecodesTo w .res
  | lea (opcode : fieldOpcode w = 14) : DecodesTo w (.lea (fieldDr w) (fieldPcOffset9 w))
  | trap (opcode : fieldOpcode w = 15) : DecodesTo w (decodeTrap (fieldVector w))

theorem DecodesTo.eq {w : Word} {i : Instr} (h : DecodesTo w i) : decodeWord w = i := by
  cases h with
  | br opcode => exact decodeWord_of_opcode_br opcode
  | addReg opcode mode => rw [decodeWord_of_opcode_add opcode, mode, if_neg Bool.false_ne_true]
  | addImm opcode mode => rw [decodeWord_of_opcode_add opcode, mode, if_pos rfl]
  | ld opcode => exact decodeWord_of_opcode_ld opcode
  | st opcode => exact decodeWord_of_opcode_st opcode
  | jsr opcode mode => rw [decodeWord_of_opcode_jsr opcode, mode, if_pos rfl]
  | jsrr opcode mode => rw [decodeWord_of_opcode_jsr opcode, mode, if_neg Bool.false_ne_true]
  | andReg opcode mode => rw [decodeWord_of_opcode_and opcode, mode, if_neg Bool.false_ne_true]
  | andImm opcode mode => rw [decodeWord_of_opcode_and opcode, mode, if_pos rfl]
  | ldr opcode => exact decodeWord_of_opcode_ldr opcode
  | str opcode => exact decodeWord_of_opcode_str opcode
  | rti opcode => exact decodeWord_of_opcode_rti opcode
  | not opcode => exact decodeWord_of_opcode_not opcode
  | ldi opcode => exact decodeWord_of_opcode_ldi opcode
  | sti opcode => exact decodeWord_of_opcode_sti opcode
  | jmp opcode => exact decodeWord_of_opcode_jmp opcode
  | res opcode => exact decodeWord_of_opcode_res opcode
  | lea opcode => exact decodeWord_of_opcode_lea opcode
  | trap opcode => exact decodeWord_of_opcode_trap opcode

/-- Decoding is total (R89): the opcode has sixteen values and the mode bits two. -/
theorem exists_decodesTo (w : Word) : ∃ i, DecodesTo w i := by
  have opcodes : ∀ op : BitVec 4, op = 0 ∨ op = 1 ∨ op = 2 ∨ op = 3 ∨ op = 4 ∨ op = 5 ∨ op = 6 ∨ op = 7 ∨ op = 8 ∨
      op = 9 ∨ op = 10 ∨ op = 11 ∨ op = 12 ∨ op = 13 ∨ op = 14 ∨ op = 15 := by decide
  rcases opcodes (fieldOpcode w) with h | h | h | h | h | h | h | h | h | h | h | h | h | h | h | h
  · exact ⟨_, .br h⟩
  · cases mode : w.getLsbD 5
    · exact ⟨_, .addReg h mode⟩
    · exact ⟨_, .addImm h mode⟩
  · exact ⟨_, .ld h⟩
  · exact ⟨_, .st h⟩
  · cases mode : w.getLsbD 11
    · exact ⟨_, .jsrr h mode⟩
    · exact ⟨_, .jsr h mode⟩
  · cases mode : w.getLsbD 5
    · exact ⟨_, .andReg h mode⟩
    · exact ⟨_, .andImm h mode⟩
  · exact ⟨_, .ldr h⟩
  · exact ⟨_, .str h⟩
  · exact ⟨_, .rti h⟩
  · exact ⟨_, .not h⟩
  · exact ⟨_, .ldi h⟩
  · exact ⟨_, .sti h⟩
  · exact ⟨_, .jmp h⟩
  · exact ⟨_, .res h⟩
  · exact ⟨_, .lea h⟩
  · exact ⟨_, .trap h⟩

theorem decodesTo_decodeWord (w : Word) : DecodesTo w (decodeWord w) := by
  obtain ⟨i, h⟩ := exists_decodesTo w
  rwa [h.eq]

end Sys2Proof
end

section
/-! PROOFS of the other family, encoding: which bits of a word decide its row and its operands (R82, R88, R89). -/

namespace Sys2Proof

/-! ## Agreement under a mask, slice by slice -/

/-- The mask that covers the bits `start + len - 1` down to `start`. -/
def sliceMask (start len : Nat) : Word := (BitVec.allOnes len).setWidth 16 <<< start

theorem and_sliceMask_eq_iff {w w' : Word} (start len : Nat) (fits : start + len ≤ 16) :
    w &&& sliceMask start len = w' &&& sliceMask start len ↔ w.extractLsb' start len = w'.extractLsb' start len := by
  constructor
  · intro h
    apply BitVec.eq_of_getLsbD_eq
    intro k hk
    have bit := congrArg (BitVec.getLsbD · (start + k)) h
    have inside : start + k < 16 := by omega
    simpa [sliceMask, hk, inside] using bit
  · intro h
    apply BitVec.eq_of_getLsbD_eq
    intro k hk
    have bit := congrArg (BitVec.getLsbD · (k - start)) h
    by_cases below : k < start
    · simp [sliceMask, below]
    · by_cases inside : k - start < len
      · have e : start + (k - start) = k := by omega
        simp only [BitVec.getLsbD_extractLsb', inside, decide_true, Bool.true_and, e] at bit
        simp [bit]
      · simp [sliceMask, inside]

/-- Agreement under two masks is agreement under both together. -/
theorem and_or_eq_iff {w w' m m' : Word} :
    w &&& (m ||| m') = w' &&& (m ||| m') ↔ w &&& m = w' &&& m ∧ w &&& m' = w' &&& m' := by
  have restrict (x : Word) {n : Word} (h : (m ||| m') &&& n = n) : (x &&& (m ||| m')) &&& n = x &&& n := by
    rw [BitVec.and_assoc, h]
  have left : (m ||| m') &&& m = m := by
    apply BitVec.eq_of_getLsbD_eq
    simp +contextual
  have right : (m ||| m') &&& m' = m' := by
    apply BitVec.eq_of_getLsbD_eq
    simp +contextual
  constructor
  · intro h
    exact ⟨by rw [← restrict w left, h, restrict w' left], by rw [← restrict w right, h, restrict w' right]⟩
  · rintro ⟨h, h'⟩
    rw [BitVec.and_or_distrib_left, BitVec.and_or_distrib_left, h, h']

/-! ## The fields under the masks of R88 and of the opcode table -/

section FieldMasks

variable {w w' : Word}

theorem agree_opcode_iff : w &&& 0xF000 = w' &&& 0xF000 ↔ fieldOpcode w = fieldOpcode w' :=
  and_sliceMask_eq_iff 12 4 (by decide)

theorem agree_dr_iff : w &&& 0x0E00 = w' &&& 0x0E00 ↔ fieldDr w = fieldDr w' := by
  refine (and_sliceMask_eq_iff 9 3 (by decide)).trans ⟨congrArg Reg.ofBits, fun h => ?_⟩
  simpa [fieldDr] using congrArg Reg.bits h

theorem agree_sr1_iff : w &&& 0x01C0 = w' &&& 0x01C0 ↔ fieldSr1 w = fieldSr1 w' := by
  refine (and_sliceMask_eq_iff 6 3 (by decide)).trans ⟨congrArg Reg.ofBits, fun h => ?_⟩
  simpa [fieldSr1] using congrArg Reg.bits h

theorem agree_sr2_iff : w &&& 0x0007 = w' &&& 0x0007 ↔ fieldSr2 w = fieldSr2 w' := by
  refine (and_sliceMask_eq_iff 0 3 (by decide)).trans ⟨congrArg Reg.ofBits, fun h => ?_⟩
  simpa [fieldSr2] using congrArg Reg.bits h

theorem agree_vector_iff : w &&& 0x00FF = w' &&& 0x00FF ↔ fieldVector w = fieldVector w' :=
  and_sliceMask_eq_iff 0 8 (by decide)

theorem slice_one_eq_iff (k : Nat) : w.extractLsb' k 1 = w'.extractLsb' k 1 ↔ w.getLsbD k = w'.getLsbD k := by
  rw [slice_one, slice_one]
  cases w.getLsbD k <;> cases w'.getLsbD k <;> decide

/-- The mode bit of ADD and AND (R85). -/
theorem agree_bit5_iff : w &&& 0x0020 = w' &&& 0x0020 ↔ w.getLsbD 5 = w'.getLsbD 5 :=
  (and_sliceMask_eq_iff 5 1 (by decide)).trans (slice_one_eq_iff 5)

/-- The mode bit of JSR and JSRR (R85). -/
theorem agree_bit11_iff : w &&& 0x0800 = w' &&& 0x0800 ↔ w.getLsbD 11 = w'.getLsbD 11 :=
  (and_sliceMask_eq_iff 11 1 (by decide)).trans (slice_one_eq_iff 11)

/-- The fixed bits of ADD and AND. -/
theorem agree_opcode_bit5_iff :
    w &&& 0xF020 = w' &&& 0xF020 ↔ fieldOpcode w = fieldOpcode w' ∧ w.getLsbD 5 = w'.getLsbD 5 := by
  rw [← agree_opcode_iff, ← agree_bit5_iff, ← and_or_eq_iff]
  rfl

/-- The fixed bits of JSR and JSRR. -/
theorem agree_opcode_bit11_iff :
    w &&& 0xF800 = w' &&& 0xF800 ↔ fieldOpcode w = fieldOpcode w' ∧ w.getLsbD 11 = w'.getLsbD 11 := by
  rw [← agree_opcode_iff, ← agree_bit11_iff, ← and_or_eq_iff]
  rfl

/-- The fixed bits of the services, and the bits of format T that are no don't-care bits. -/
theorem agree_opcode_vector_iff :
    w &&& 0xF0FF = w' &&& 0xF0FF ↔ fieldOpcode w = fieldOpcode w' ∧ fieldVector w = fieldVector w' := by
  rw [← agree_opcode_iff, ← agree_vector_iff, ← and_or_eq_iff]
  rfl

/-- The bits of format RRR that are no don't-care bits. -/
theorem agree_formatRRR_iff :
    w &&& 0xFFE7 = w' &&& 0xFFE7 ↔ fieldOpcode w = fieldOpcode w' ∧ w.getLsbD 5 = w'.getLsbD 5 ∧
      fieldDr w = fieldDr w' ∧ fieldSr1 w = fieldSr1 w' ∧ fieldSr2 w = fieldSr2 w' := by
  rw [← agree_opcode_iff, ← agree_bit5_iff, ← agree_dr_iff, ← agree_sr1_iff, ← agree_sr2_iff, ← and_or_eq_iff,
    ← and_or_eq_iff, ← and_or_eq_iff, ← and_or_eq_iff]
  rfl

/-- The bits of format RR that are no don't-care bits. -/
theorem agree_formatRR_iff :
    w &&& 0xFFC0 = w' &&& 0xFFC0 ↔ fieldOpcode w = fieldOpcode w' ∧ fieldDr w = fieldDr w' ∧
      fieldSr1 w = fieldSr1 w' := by
  rw [← agree_opcode_iff, ← agree_dr_iff, ← agree_sr1_iff, ← and_or_eq_iff, ← and_or_eq_iff]
  rfl

/-- The bits of format B that are no don't-care bits. -/
theorem agree_formatB_iff :
    w &&& 0xF1C0 = w' &&& 0xF1C0 ↔ fieldOpcode w = fieldOpcode w' ∧ fieldSr1 w = fieldSr1 w' := by
  rw [← agree_opcode_iff, ← agree_sr1_iff, ← and_or_eq_iff]
  rfl

/-- The bits of format JB that are no don't-care bits. -/
theorem agree_formatJB_iff :
    w &&& 0xF9C0 = w' &&& 0xF9C0 ↔ fieldOpcode w = fieldOpcode w' ∧ w.getLsbD 11 = w'.getLsbD 11 ∧
      fieldSr1 w = fieldSr1 w' := by
  rw [← agree_opcode_iff, ← agree_bit11_iff, ← agree_sr1_iff, ← and_or_eq_iff, ← and_or_eq_iff]
  rfl

end FieldMasks

/-! ## The don't-care bits -/

theorem encodeWord_decodeTrap (v : BitVec 8) : encodeWord (decodeTrap v) = formatT 0 v := by
  unfold decodeTrap
  split
  case h_7 => rfl
  all_goals next h => exact congrArg (formatT 0) (BitVec.eq_of_toNat_eq h.symm)

/-- The rows of TRAP and of its services have one format. -/
theorem decodeTrap_careMask (v : BitVec 8) : (decodeTrap v).careMask = 0xF0FF := by
  unfold decodeTrap
  split <;> rfl

/-- In a format without don't-care bits the canonical word is the word itself; in the others it has the same fields. -/
theorem DecodesTo.encodeWord_agrees {w : Word} {i : Instr} (h : DecodesTo w i) :
    encodeWord i &&& i.careMask = w &&& i.careMask := by
  have same_word {i : Instr} {v : Word} (hv : v = w) (e : encodeWord i = v) :
      encodeWord i &&& i.careMask = w &&& i.careMask := by rw [e, hv]
  cases h with
  | br opcode => exact same_word (formatBR_of_fields opcode) rfl
  | addImm opcode mode => exact same_word (formatRRI_of_fields mode) (by rw [opcode]; rfl)
  | andImm opcode mode => exact same_word (formatRRI_of_fields mode) (by rw [opcode]; rfl)
  | jsr opcode mode => exact same_word (formatJ11_of_fields opcode mode) rfl
  | ld opcode => exact same_word (formatRP9_of_fields w) (by rw [opcode]; rfl)
  | st opcode => exact same_word (formatRP9_of_fields w) (by rw [opcode]; rfl)
  | ldi opcode => exact same_word (formatRP9_of_fields w) (by rw [opcode]; rfl)
  | sti opcode => exact same_word (formatRP9_of_fields w) (by rw [opcode]; rfl)
  | lea opcode => exact same_word (formatRP9_of_fields w) (by rw [opcode]; rfl)
  | ldr opcode => exact same_word (formatRB6_of_fields w) (by rw [opcode]; rfl)
  | str opcode => exact same_word (formatRB6_of_fields w) (by rw [opcode]; rfl)
  | addReg opcode mode =>
    obtain ⟨hop, hdr, hsr1, hmode, hsr2⟩ := formatRRR_fields 1 (fieldDr w) (fieldSr1 w) 0 (fieldSr2 w)
    exact agree_formatRRR_iff.2 ⟨hop.trans opcode.symm, hmode.trans mode.symm, hdr, hsr1, hsr2⟩
  | andReg opcode mode =>
    obtain ⟨hop, hdr, hsr1, hmode, hsr2⟩ := formatRRR_fields 5 (fieldDr w) (fieldSr1 w) 0 (fieldSr2 w)
    exact agree_formatRRR_iff.2 ⟨hop.trans opcode.symm, hmode.trans mode.symm, hdr, hsr1, hsr2⟩
  | jsrr opcode mode =>
    obtain ⟨hop, hmode, hsr1⟩ := formatJB_fields 0 (fieldSr1 w) 0
    exact agree_formatJB_iff.2 ⟨hop.trans opcode.symm, hmode.trans mode.symm, hsr1⟩
  | not opcode =>
    obtain ⟨hop, hdr, hsr1⟩ := formatRR_fields (fieldDr w) (fieldSr1 w) 0x3F
    exact agree_formatRR_iff.2 ⟨hop.trans opcode.symm, hdr, hsr1⟩
  | jmp opcode =>
    obtain ⟨hop, hsr1⟩ := formatB_fields 0 (fieldSr1 w) 0
    exact agree_formatB_iff.2 ⟨hop.trans opcode.symm, hsr1⟩
  | rti opcode => exact agree_opcode_iff.2 ((formatX_fields 8 0).trans opcode.symm)
  | res opcode => exact agree_opcode_iff.2 ((formatX_fields 13 0).trans opcode.symm)
  | trap opcode =>
    obtain ⟨hop, hv⟩ := formatT_fields 0 (fieldVector w)
    rw [encodeWord_decodeTrap, decodeTrap_careMask]
    exact agree_opcode_vector_iff.2 ⟨hop.trans opcode.symm, hv⟩

/-- Settles O2: a word and the canonical word of its instruction have the same fields. -/
theorem decodingKeepsEveryFieldBit : Obligations.DecodingKeepsEveryFieldBit := by
  unfold Obligations.DecodingKeepsEveryFieldBit
  intro w
  exact ⟨decodeWord_wellFormed w, (decodesTo_decodeWord w).encodeWord_agrees⟩

/-- The covered bits hold the opcode, the mode and the fields; without don't-care bits it is the same word. -/
theorem DecodesTo.of_agree {w w' : Word} {i : Instr} (h : DecodesTo w i)
    (agree : w &&& i.careMask = w' &&& i.careMask) : DecodesTo w' i := by
  have same_word (full : i.careMask = 0xFFFF) : DecodesTo w' i := by
    rw [full] at agree
    have e : w = w' := BitVec.and_allOnes.symm.trans (agree.trans BitVec.and_allOnes)
    exact e ▸ h
  cases h with
  | addReg opcode mode =>
    obtain ⟨hop, hmode, hdr, hsr1, hsr2⟩ := agree_formatRRR_iff.1 agree
    rw [hdr, hsr1, hsr2]
    exact .addReg (hop.symm.trans opcode) (hmode.symm.trans mode)
  | andReg opcode mode =>
    obtain ⟨hop, hmode, hdr, hsr1, hsr2⟩ := agree_formatRRR_iff.1 agree
    rw [hdr, hsr1, hsr2]
    exact .andReg (hop.symm.trans opcode) (hmode.symm.trans mode)
  | jsrr opcode mode =>
    obtain ⟨hop, hmode, hsr1⟩ := agree_formatJB_iff.1 agree
    rw [hsr1]
    exact .jsrr (hop.symm.trans opcode) (hmode.symm.trans mode)
  | not opcode =>
    obtain ⟨hop, hdr, hsr1⟩ := agree_formatRR_iff.1 agree
    rw [hdr, hsr1]
    exact .not (hop.symm.trans opcode)
  | jmp opcode =>
    obtain ⟨hop, hsr1⟩ := agree_formatB_iff.1 agree
    rw [hsr1]
    exact .jmp (hop.symm.trans opcode)
  | rti opcode => exact .rti ((agree_opcode_iff.1 agree).symm.trans opcode)
  | res opcode => exact .res ((agree_opcode_iff.1 agree).symm.trans opcode)
  | trap opcode =>
    rw [decodeTrap_careMask] at agree
    obtain ⟨hop, hv⟩ := agree_opcode_vector_iff.1 agree
    rw [hv]
    exact .trap (hop.symm.trans opcode)
  | _ => exact same_word rfl

/-- Settles O4: what the decoder reads of a word are its covered bits. -/
theorem dontCareBitsAreIgnored : Obligations.DontCareBitsAreIgnored := by
  unfold Obligations.DontCareBitsAreIgnored
  intro w w' agree
  exact ((decodesTo_decodeWord w).of_agree agree).eq

/-! ## The fixed bits of the rows -/

/-- The row TRAP, or a refinement of it, whose fixed bits are those of the canonical word. -/
theorem decodeTrap_row (v : BitVec 8) :
    (decodeTrap v).row = ⟨0xF000, 0xF000⟩ ∨
      (decodeTrap v).row = ⟨0xF0FF, encodeWord (decodeTrap v) &&& 0xF0FF⟩ := by
  unfold decodeTrap
  split
  case h_7 => exact .inl rfl
  all_goals exact .inr rfl

/-- A word has the fixed bits of the row it decodes to: those of its opcode, its mode, its vector. -/
theorem DecodesTo.matches_row {w : Word} {i : Instr} (h : DecodesTo w i) : w &&& i.row.mask = i.row.pattern := by
  cases h with
  | br opcode => exact agree_opcode_iff (w' := 0x0000).2 opcode
  | addReg opcode mode => exact agree_opcode_bit5_iff (w' := 0x1000).2 ⟨opcode, mode⟩
  | addImm opcode mode => exact agree_opcode_bit5_iff (w' := 0x1020).2 ⟨opcode, mode⟩
  | ld opcode => exact agree_opcode_iff (w' := 0x2000).2 opcode
  | st opcode => exact agree_opcode_iff (w' := 0x3000).2 opcode
  | jsr opcode mode => exact agree_opcode_bit11_iff (w' := 0x4800).2 ⟨opcode, mode⟩
  | jsrr opcode mode => exact agree_opcode_bit11_iff (w' := 0x4000).2 ⟨opcode, mode⟩
  | andReg opcode mode => exact agree_opcode_bit5_iff (w' := 0x5000).2 ⟨opcode, mode⟩
  | andImm opcode mode => exact agree_opcode_bit5_iff (w' := 0x5020).2 ⟨opcode, mode⟩
  | ldr opcode => exact agree_opcode_iff (w' := 0x6000).2 opcode
  | str opcode => exact agree_opcode_iff (w' := 0x7000).2 opcode
  | rti opcode => exact agree_opcode_iff (w' := 0x8000).2 opcode
  | not opcode => exact agree_opcode_iff (w' := 0x9000).2 opcode
  | ldi opcode => exact agree_opcode_iff (w' := 0xA000).2 opcode
  | sti opcode => exact agree_opcode_iff (w' := 0xB000).2 opcode
  | jmp opcode => exact agree_opcode_iff (w' := 0xC000).2 opcode
  | res opcode => exact agree_opcode_iff (w' := 0xD000).2 opcode
  | lea opcode => exact agree_opcode_iff (w' := 0xE000).2 opcode
  | trap opcode =>
    obtain ⟨hop, hv⟩ := formatT_fields 0 (fieldVector w)
    rcases decodeTrap_row (fieldVector w) with e | e <;> rw [e]
    · exact agree_opcode_iff (w' := 0xF000).2 opcode
    · rw [encodeWord_decodeTrap]
      exact agree_opcode_vector_iff.2 ⟨opcode.trans hop.symm, hv.symm⟩

/-- The fixed bits of a service's row name the vector. -/
theorem decodeWord_of_service_bits {w : Word} (v : BitVec 8) (h : w &&& 0xF0FF = formatT 0 v &&& 0xF0FF) :
    decodeWord w = decodeTrap v := by
  obtain ⟨hop, hv⟩ := agree_opcode_vector_iff.1 h
  obtain ⟨fop, fv⟩ := formatT_fields 0 v
  rw [decodeWord_of_opcode_trap (hop.trans fop), hv, fv]

/-- The fixed bits of a row are enough to decode to it, except that those of TRAP leave the row to the vector. -/
theorem row_of_match {w : Word} {i : Instr} (h : w &&& i.row.mask = i.row.pattern) :
    i.row = (decodeWord w).row ∨ (i.row = ⟨0xF000, 0xF000⟩ ∧ (decodeWord w).row.mask = 0xF0FF) := by
  have row {j : Instr} (e : decodeWord w = j) (hj : i.row = j.row) :
      i.row = (decodeWord w).row ∨ (i.row = ⟨0xF000, 0xF000⟩ ∧ (decodeWord w).row.mask = 0xF0FF) :=
    .inl (by rw [e, hj])
  cases i with
  | br => exact row (DecodesTo.br (agree_opcode_iff (w' := 0x0000).1 h)).eq rfl
  | addReg =>
    obtain ⟨opcode, mode⟩ := agree_opcode_bit5_iff (w' := 0x1000).1 h
    exact row (DecodesTo.addReg opcode mode).eq rfl
  | addImm =>
    obtain ⟨opcode, mode⟩ := agree_opcode_bit5_iff (w' := 0x1020).1 h
    exact row (DecodesTo.addImm opcode mode).eq rfl
  | ld => exact row (DecodesTo.ld (agree_opcode_iff (w' := 0x2000).1 h)).eq rfl
  | st => exact row (DecodesTo.st (agree_opcode_iff (w' := 0x3000).1 h)).eq rfl
  | jsr =>
    obtain ⟨opcode, mode⟩ := agree_opcode_bit11_iff (w' := 0x4800).1 h
    exact row (DecodesTo.jsr opcode mode).eq rfl
  | jsrr =>
    obtain ⟨opcode, mode⟩ := agree_opcode_bit11_iff (w' := 0x4000).1 h
    exact row (DecodesTo.jsrr opcode mode).eq rfl
  | andReg =>
    obtain ⟨opcode, mode⟩ := agree_opcode_bit5_iff (w' := 0x5000).1 h
    exact row (DecodesTo.andReg opcode mode).eq rfl
  | andImm =>
    obtain ⟨opcode, mode⟩ := agree_opcode_bit5_iff (w' := 0x5020).1 h
    exact row (DecodesTo.andImm opcode mode).eq rfl
  | ldr => exact row (DecodesTo.ldr (agree_opcode_iff (w' := 0x6000).1 h)).eq rfl
  | str => exact row (DecodesTo.str (agree_opcode_iff (w' := 0x7000).1 h)).eq rfl
  | rti => exact row (DecodesTo.rti (agree_opcode_iff (w' := 0x8000).1 h)).eq rfl
  | not => exact row (DecodesTo.not (agree_opcode_iff (w' := 0x9000).1 h)).eq rfl
  | ldi => exact row (DecodesTo.ldi (agree_opcode_iff (w' := 0xA000).1 h)).eq rfl
  | sti => exact row (DecodesTo.sti (agree_opcode_iff (w' := 0xB000).1 h)).eq rfl
  | jmp => exact row (DecodesTo.jmp (agree_opcode_iff (w' := 0xC000).1 h)).eq rfl
  | res => exact row (DecodesTo.res (agree_opcode_iff (w' := 0xD000).1 h)).eq rfl
  | lea => exact row (DecodesTo.lea (agree_opcode_iff (w' := 0xE000).1 h)).eq rfl
  | getc => exact row (decodeWord_of_service_bits 0x20 h) rfl
  | out => exact row (decodeWord_of_service_bits 0x21 h) rfl
  | puts => exact row (decodeWord_of_service_bits 0x22 h) rfl
  | inChar => exact row (decodeWord_of_service_bits 0x23 h) rfl
  | putsp => exact row (decodeWord_of_service_bits 0x24 h) rfl
  | halt => exact row (decodeWord_of_service_bits 0x25 h) rfl
  | trap v =>
    have e := (DecodesTo.trap (agree_opcode_iff (w' := 0xF000).1 h)).eq
    rcases decodeTrap_row (fieldVector w) with r | r
    · exact row e r.symm
    · exact .inr ⟨rfl, by rw [e, r]⟩

/-- Settles O3: opcode, mode and vector give the row its fixed bits, and those give the row back. -/
theorem decodedRowIsTheOneThatMatches : Obligations.DecodedRowIsTheOneThatMatches := by
  unfold Obligations.DecodedRowIsTheOneThatMatches
  intro w
  exact ⟨(decodesTo_decodeWord w).matches_row, fun _ => row_of_match⟩

/-- Settles O5: each word is a closed term, so the decoder evaluates it. -/
theorem wordsOfTheSpecDecode : Obligations.WordsOfTheSpecDecode := by
  unfold Obligations.WordsOfTheSpecDecode
  decide

end Sys2Proof
end

section
/-! PROOFS of the other family, the step: how the instructions of the trap gateway end by name, the invariant (R33, R150, R161,
R186, R198), and the ways into HALTED (R32, R190). -/

namespace Sys2Proof.Machine

/-! ## How an instruction of the trap gateway ends -/

/-- The phase an instruction can be left waiting in (R161, R198): one of the four, or none. -/
def waitPhase : Instr → Phase
  | .getc => .getcRead
  | .inChar => .inRead
  | .puts => .putsScan
  | .putsp => .putspScan
  | _ => .between

theorem eq_getc_of_waitPhase {i : Instr} (h : waitPhase i = .getcRead) : i = .getc := by
  cases i with
  | getc => rfl
  | _ => cases h

theorem eq_inChar_of_waitPhase {i : Instr} (h : waitPhase i = .inRead) : i = .inChar := by
  cases i with
  | inChar => rfl
  | _ => cases h

theorem eq_puts_of_waitPhase {i : Instr} (h : waitPhase i = .putsScan) : i = .puts := by
  cases i with
  | puts => rfl
  | _ => cases h

theorem eq_putsp_of_waitPhase {i : Instr} (h : waitPhase i = .putspScan) : i = .putsp := by
  cases i with
  | putsp => rfl
  | _ => cases h

/-- A scan waits on only over a memory without a zero word (R198). -/
def EndlessOnly (s t : State) : Prop := t.phase = .putsScan ∨ t.phase = .putspScan → ∀ a, s.mem.read a ≠ 0

theorem EndlessOnly.of_phase {s t : State} {p : Phase} (h : t.phase = .between ∨ t.phase = p) (h1 : p ≠ .putsScan)
    (h2 : p ≠ .putspScan) : EndlessOnly s t := by
  rintro (e | e) <;> rw [e] at h <;> rcases h with h | h
  · cases h
  · exact absurd h.symm h1
  · cases h
  · exact absurd h.symm h2

theorem EndlessOnly.of_waits {s t : State} (h : t.phase ≠ .between → ∀ a, s.mem.read a ≠ 0) : EndlessOnly s t := by
  rintro (e | e) <;> exact h (by simp [e])

/-- How a well-formed TRAP ends, by name: the undefined vector, HALT, and the services that may wait; `s` has the link. -/
inductive GatewayEnd (i : Instr) (s t : State) : Prop where
  | undefined (v : BitVec 8) (row : i = .trap v) (raised : t = s.raise .undefinedTrapVector)
  | halted (row : i = .halt) (run : t.runState = .halted) (phase : t.phase = .between)
      (fault : SameFault s t ∨ t.faultCause = .hostIOFailure)
  | served (ends : ServiceEnd (waitPhase i) s t) (endless : EndlessOnly s t)

theorem exec_trap_end {i : Instr} {s t : State} (hi : i.isTrap = true) (hw : i.wellFormed = true)
    (h : exec i s = .next t) : GatewayEnd i s.link t := by
  cases i with
  | trap v =>
    have undefined : definedVector v = false := by simpa [Instr.wellFormed] using hw
    have range : v.toNat < 0x20 ∨ 0x25 < v.toNat := by
      simp only [definedVector, Bool.and_eq_false_iff, decide_eq_false_iff_not] at undefined
      omega
    rw [exec_trap, State.trapDispatch_of_undefined _ range] at h
    exact .undefined v rfl (Host.Outcome.next.inj h).symm
  | halt =>
    cases h
    obtain ⟨-, -, hr, hp, hf⟩ := haltService_spec s.link
    exact .halted rfl hr hp (hf.imp_right And.left)
  | getc =>
    cases h
    have ends := (getcRead_spec s.link).2
    exact .served ends (.of_phase ends.phase_cases nofun nofun)
  | inChar =>
    cases h
    have ends := (inService_spec s.link).2
    exact .served ends (.of_phase ends.phase_cases nofun nofun)
  | out =>
    cases h
    have ends := (outService_spec s.link).2.1
    exact .served ends (.of_phase ends.phase_cases nofun nofun)
  | puts =>
    cases h
    obtain ⟨-, ends, -, endless⟩ := scanService_spec s.link putsChars .putsScan
    exact .served ends (.of_waits endless)
  | putsp =>
    cases h
    obtain ⟨-, ends, -, endless⟩ := scanService_spec s.link putspChars .putspScan
    exact .served ends (.of_waits endless)
  | _ => cases hi

/-! ## States that meet the invariant -/

/-- Between two steps, without a fault or with a failure of the host recorded. -/
theorem State.Inv.of_between {t : State} (memory : t.mem.wf) (phase : t.phase = .between)
    (cause : t.faultCause = .none ∨ (t.faultCause = .hostIOFailure ∧ t.runState = .halted)) : t.Inv where
  memory := memory
  faulted h := by
    rcases cause with e | ⟨-, e⟩
    · exact absurd e h
    · exact e
  opcodeRecord h := by rcases cause with e | ⟨e, -⟩ <;> rw [e] at h <;> cases h
  vectorRecord h := by rcases cause with e | ⟨e, -⟩ <;> rw [e] at h <;> cases h
  waiting h := absurd phase h
  getcLatched h := by rw [phase] at h; cases h
  inLatched h := by rw [phase] at h; cases h
  putsLatched h := by rw [phase] at h; cases h
  putspLatched h := by rw [phase] at h; cases h
  endless h := by rw [phase] at h; rcases h with h | h <;> cases h

/-- In a step that waits: linked, and in the phase of the latched instruction. -/
theorem State.Inv.of_waiting {t : State} (memory : t.mem.wf) (run : t.runState = .running)
    (cause : t.faultCause = .none) (link : t.reg .r7 = t.pc) (latched : waitPhase (decodeWord t.ir) = t.phase)
    (endless : t.phase = .putsScan ∨ t.phase = .putspScan → ∀ a, t.mem.read a ≠ 0) : t.Inv where
  memory := memory
  faulted h := absurd cause h
  opcodeRecord h := by rw [cause] at h; cases h
  vectorRecord h := by rw [cause] at h; cases h
  waiting _ := ⟨run, link⟩
  getcLatched h := eq_getc_of_waitPhase (latched.trans h)
  inLatched h := eq_inChar_of_waitPhase (latched.trans h)
  putsLatched h := eq_puts_of_waitPhase (latched.trans h)
  putspLatched h := eq_putsp_of_waitPhase (latched.trans h)
  endless := endless

/-- A waiting step is the one of the latched instruction. -/
theorem State.Inv.latched {s : State} (h : s.Inv) (hp : s.phase ≠ .between) :
    waitPhase (decodeWord s.ir) = s.phase := by
  cases e : s.phase with
  | between => exact absurd e hp
  | getcRead => rw [h.getcLatched e]; rfl
  | inRead => rw [h.inLatched e]; rfl
  | putsScan => rw [h.putsLatched e]; rfl
  | putspScan => rw [h.putspLatched e]; rfl

/-- A RUNNING machine has no fault recorded. -/
theorem State.Inv.no_fault {s : State} (h : s.Inv) (hr : s.runState = .running) : s.faultCause = .none := by
  by_contra hc
  rw [h.faulted hc] at hr
  cases hr

theorem inv_raise_undefinedOpcode {s : State} (memory : s.mem.wf) (op : decodeWord s.ir = .rti ∨ decodeWord s.ir = .res) :
    (s.raise .undefinedOpcode).Inv where
  memory := memory
  faulted _ := rfl
  opcodeRecord _ := ⟨rfl, rfl, op⟩
  vectorRecord := nofun
  waiting h := absurd rfl h
  getcLatched := nofun
  inLatched := nofun
  putsLatched := nofun
  putspLatched := nofun
  endless := nofun

theorem inv_raise_undefinedTrapVector {s : State} {v : BitVec 8} (memory : s.mem.wf) (link : s.reg .r7 = s.pc)
    (op : decodeWord s.ir = .trap v) : (s.raise .undefinedTrapVector).Inv where
  memory := memory
  faulted _ := rfl
  opcodeRecord := nofun
  vectorRecord _ := by
    obtain ⟨opcode, rfl, undefined⟩ := decodeWord_trap op
    exact ⟨rfl, rfl, link, opcode, undefined⟩
  waiting h := absurd rfl h
  getcLatched := nofun
  inLatched := nofun
  putsLatched := nofun
  putspLatched := nofun
  endless := nofun

/-! ## Every step keeps the invariant -/

/-- An instruction that is no TRAP ends between two steps; what it stores keeps memory canonical. -/
theorem PlainEffect.inv {s t : State} (h : PlainEffect (decodeWord s.ir) s t) (memory : s.mem.wf)
    (phase : s.phase = .between) (cause : s.faultCause = .none) : t.Inv := by
  cases h with
  | jumped => exact .of_between memory phase (.inl cause)
  | linked => exact .of_between memory phase (.inl cause)
  | result dr v u reads =>
    exact .of_between (reads.memWf memory) (reads.phase.trans phase) (.inl (reads.faultCause.trans cause))
  | stored a v u reads =>
    exact .of_between (Memory.write_wf (reads.memWf memory) a v) (reads.phase.trans phase)
      (.inl (reads.faultCause.trans cause))
  | undefined op => exact inv_raise_undefinedOpcode memory op
  | failed u reads => exact .of_between (reads.memWf memory) rfl (.inr ⟨rfl, rfl⟩)

/-- A service of the latched instruction, from its start or going on, ends or is left waiting as the invariant says. -/
theorem ServiceEnd.inv {p : Phase} {s t : State} (h : ServiceEnd p s t) (frame : ServiceFrame s t)
    (endless : EndlessOnly s t) (memory : s.mem.wf) (run : s.runState = .running) (cause : s.faultCause = .none)
    (link : s.reg .r7 = s.pc) (latched : waitPhase (decodeWord s.ir) = p) : t.Inv := by
  have memory' : t.mem.wf := by rw [frame.mem]; exact memory
  cases h with
  | completed phase _ fault => exact .of_between memory' phase (.inl (fault.cause.trans cause))
  | faulted phase run' cause' => exact .of_between memory' phase (.inr ⟨cause', run'⟩)
  | stopped phase _ fault => exact .of_between memory' phase (.inl (fault.cause.trans cause))
  | waiting phase run' fault =>
    refine .of_waiting memory' (run'.trans run) (fault.cause.trans cause) ?_ ?_ ?_
    · rw [frame.regs .r7 (by decide), frame.pc, link]
    · rw [frame.ir, latched, phase]
    · rw [frame.mem]; exact endless

/-- A fetched instruction leaves a state that meets the invariant. -/
theorem exec_inv {s t : State} (h : exec (decodeWord s.ir) s = .next t) (memory : s.mem.wf)
    (run : s.runState = .running) (phase : s.phase = .between) (cause : s.faultCause = .none) : t.Inv := by
  cases hi : (decodeWord s.ir).isTrap with
  | false => exact (exec_plain_spec hi h).inv memory phase cause
  | true =>
    have frame := (exec_trap_spec hi h).1
    have memory' : t.mem.wf := by rw [frame.mem]; exact memory
    have link : s.link.reg .r7 = s.link.pc := by simp
    cases exec_trap_end hi (decodeWord_wellFormed s.ir) h with
    | undefined v row raised => exact raised ▸ inv_raise_undefinedTrapVector (s := s.link) memory link row
    | halted _ run' phase' fault =>
      refine .of_between memory' phase' (fault.imp (fun same => same.cause.trans cause) fun c => ⟨c, run'⟩)
    | served ends endless => exact ends.inv frame endless memory run cause link rfl

/-- Settles O24: each way a step of a RUNNING machine can go leaves a state that meets the invariant. -/
theorem stepKeepsTheInvariant : Obligations.StepKeepsTheInvariant := by
  unfold Obligations.StepKeepsTheInvariant
  intro s t inv h
  cases run : s.runState with
  | halted =>
    rw [step_of_halted run] at h
    exact Host.Outcome.next.inj h ▸ inv
  | running =>
    have cause := inv.no_fault run
    rcases step_cases run h with ⟨-, -, rfl⟩ | ⟨-, -, u, hu, rfl⟩ | ⟨phase, -, w, u, hu, hx⟩ | ⟨waits, rfl⟩
    · exact .of_between inv.memory rfl (.inl cause)
    · obtain ⟨-, core, -⟩ := memRead_failed hu
      exact .of_between (by rw [State.raiseAtFetch_mem, core.mem]; exact inv.memory) rfl (.inr ⟨rfl, rfl⟩)
    · obtain ⟨-, reads, -⟩ := memRead_ok hu
      exact exec_inv (s := { u with ir := w, pc := s.pc + 1 }) hx (reads.memWf inv.memory)
        (reads.runState.trans run) (reads.phase.trans phase) (reads.faultCause.trans cause)
    · obtain ⟨frame, ends, endless⟩ := resume_spec waits
      exact ends.inv frame endless inv.memory run cause (inv.waiting waits).2 (inv.latched waits)

/-- Settles O25: reset is between two steps without a fault, and an image in canonical form is the memory. -/
theorem resetMeetsTheInvariant : Obligations.ResetMeetsTheInvariant := by
  unfold Obligations.ResetMeetsTheInvariant
  have boots : ∀ image : Memory, image.wf → (State.boot image).Inv :=
    fun image canonical => .of_between canonical rfl (.inl rfl)
  exact ⟨boots ⟨[]⟩ Memory.empty_wf, boots⟩

/-! ## The ways into HALTED -/

/-- A service that halts a RUNNING machine has raised a fault or honoured a stop request. -/
theorem ServiceEnd.of_halted {p : Phase} {s t : State} (h : ServiceEnd p s t) (run : s.runState = .running)
    (halted : t.runState = .halted) : t.faultCause ≠ .none ∨ t.stopRequested = true := by
  cases h with
  | completed _ run' => rw [run', run] at halted; cases halted
  | faulted _ _ cause => exact .inl (by simp [cause])
  | stopped _ _ _ request => exact .inr request
  | waiting _ run' => rw [run', run] at halted; cases halted

/-- An instruction that is no TRAP halts the machine only by a fatal error. -/
theorem PlainEffect.of_halted {i : Instr} {s t : State} (h : PlainEffect i s t) (run : s.runState = .running)
    (halted : t.runState = .halted) : t.faultCause ≠ .none := by
  cases h with
  | jumped => rw [run] at halted; cases halted
  | linked => rw [State.link_runState, run] at halted; cases halted
  | result dr v u reads => rw [State.setRegCc_eq, reads.runState, run] at halted; cases halted
  | stored a v u reads => rw [State.memWrite_runState, reads.runState, run] at halted; cases halted
  | undefined => simp
  | failed => simp

theorem exec_of_halted {s t : State} (h : exec (decodeWord s.ir) s = .next t) (run : s.runState = .running)
    (halted : t.runState = .halted) : t.EndedWell ∨ t.faultCause ≠ .none ∨ t.stopRequested = true := by
  cases hi : (decodeWord s.ir).isTrap with
  | false => exact .inr (.inl ((exec_plain_spec hi h).of_halted run halted))
  | true =>
    have frame := (exec_trap_spec hi h).1
    cases exec_trap_end hi (decodeWord_wellFormed s.ir) h with
    | undefined v row raised => exact .inr (.inl (by simp [raised]))
    | served ends => exact .inr (ends.of_halted run halted)
    | halted row =>
      by_cases cause : t.faultCause = .none
      · exact .inl ⟨halted, cause, by rw [frame.ir, State.link_ir, row]⟩
      · exact .inr (.inl cause)

/-- Settles O18: of the ways a step can go, those that halt the machine are HALT, the fatal errors and the stop request. -/
theorem haltedIsAbsorbingAndEnteredOnlyAsTheSpecSays :
    Obligations.HaltedIsAbsorbingAndEnteredOnlyAsTheSpecSays := by
  unfold Obligations.HaltedIsAbsorbingAndEnteredOnlyAsTheSpecSays
  refine ⟨fun s => step_of_halted, fun s t run h halted => ?_⟩
  rcases step_cases run h with ⟨-, stop, rfl⟩ | ⟨-, -, u, -, rfl⟩ | ⟨-, -, w, u, hu, hx⟩ | ⟨waits, rfl⟩
  · exact .inr (.inr stop)
  · exact .inr (.inl (by simp))
  · exact exec_of_halted (s := { u with ir := w, pc := s.pc + 1 }) hx ((memRead_ok hu).2.1.runState.trans run) halted
  · exact .inr ((resume_spec waits).2.1.of_halted run halted)

end Sys2Proof.Machine
end

section
/-! PROOFS of the other family, memory: stores, the canonical form, images (R29, R52, R60, R213). -/

namespace Sys2Proof.Machine

/-! ## Stores and the reset memory -/

/-- Settles O8: `State.boot` changes the memory of `State.reset` only, and that is the empty one. -/
theorem stateResetHasTheEmptyImage : Obligations.StateResetHasTheEmptyImage := by
  unfold Obligations.StateResetHasTheEmptyImage
  exact ⟨rfl, Memory.read_empty⟩

/-- Settles O10: `MemWrite` is one `Memory.write`, at every address. -/
theorem storeSetsOneWord : Obligations.StoreSetsOneWord := by
  unfold Obligations.StoreSetsOneWord
  intro s a v
  obtain ⟨rest, word, others⟩ := s.memWrite_sets_one_word a v
  exact ⟨word, others, rest⟩

/-- Settles O34: the fetch reads memory, and the store has put the word there. -/
theorem storedWordIsWhatIsFetched : Obligations.StoredWordIsWhatIsFetched := by
  unfold Obligations.StoredWordIsWhatIsFetched
  intro s a v ha
  obtain ⟨-, word, -⟩ := s.memWrite_sets_one_word a v
  rw [fetch_of_ne (s := { s.memWrite a v with pc := a }) ha]
  simp only [word]

/-! ## Images -/

/-- The address after the origin; it wraps to zero only when no word is left to load. -/
theorem toNat_add_one (origin : Word) : (origin + 1).toNat = (origin.toNat + 1) % 65536 := by
  rw [BitVec.toNat_add]
  rfl

/-- Loading leaves every address outside the range alone. -/
theorem Memory.read_loadWords_of_outside (ws : List Word) (m : Memory) (origin a : Word)
    (fits : origin.toNat + ws.length ≤ 65536) (outside : a.toNat < origin.toNat ∨ origin.toNat + ws.length ≤ a.toNat) :
    (m.loadWords origin ws).read a = m.read a := by
  induction ws generalizing m origin with
  | nil => rfl
  | cons w ws ih =>
    rw [List.length_cons] at fits outside
    have next := toNat_add_one origin
    have ne : a ≠ origin := by rintro rfl; omega
    rw [Memory.loadWords, ih (m.write origin w) (origin + 1) (by omega) (by omega), Memory.read_write, if_neg ne]

/-- Word `k` stands at `origin + k`: the words after it are loaded to addresses after it. -/
theorem Memory.read_loadWords_of_inside (ws : List Word) (m : Memory) (origin : Word)
    (fits : origin.toNat + ws.length ≤ 65536) (k : Nat) (hk : k < ws.length) :
    (m.loadWords origin ws).read (origin + BitVec.ofNat 16 k) = ws[k] := by
  induction ws generalizing m origin k with
  | nil => cases hk
  | cons w ws ih =>
    rw [List.length_cons] at fits hk
    have next := toNat_add_one origin
    rw [Memory.loadWords]
    cases k with
    | zero =>
      have here : origin + BitVec.ofNat 16 0 = origin := BitVec.add_zero origin
      rw [here, Memory.read_loadWords_of_outside ws _ (origin + 1) origin (by omega) (by omega), Memory.read_write,
        if_pos rfl, List.getElem_cons_zero]
    | succ k =>
      rw [add_ofNat_succ, ih (m.write origin w) (origin + 1) (by omega) k (by omega), List.getElem_cons_succ]

/-- Settles O9: by induction on the words, each store sets one word and the later ones are elsewhere. -/
theorem imageWordsStandFromTheirOrigin : Obligations.ImageWordsStandFromTheirOrigin := by
  unfold Obligations.ImageWordsStandFromTheirOrigin
  intro m origin ws fits
  exact ⟨m.read_loadWords_of_inside ws origin fits, fun a => m.read_loadWords_of_outside ws origin a fits⟩

/-! ## The canonical form -/

theorem cellGet_of_not_mem {l : List Host.Cell} {k : Nat} (h : ∀ c ∈ l, c.1 ≠ k) : cellGet l k = 0 := by
  induction l with
  | nil => rfl
  | cons c l ih =>
    rw [List.forall_mem_cons] at h
    rw [cellGet, if_neg h.1, ih h.2]

/-- In canonical form the listed cells are exactly the bytes that are not zero. -/
theorem mem_cells_iff {l : List Host.Cell} (sorted : l.Pairwise (fun c d => c.1 < d.1)) (nonzero : ∀ c ∈ l, c.2 ≠ 0)
    (c : Host.Cell) : c ∈ l ↔ c.2 ≠ 0 ∧ cellGet l c.1 = c.2 := by
  induction l with
  | nil => exact ⟨nofun, fun ⟨hne, hget⟩ => absurd hget.symm hne⟩
  | cons d l ih =>
    rw [List.pairwise_cons] at sorted
    rw [List.forall_mem_cons] at nonzero
    have rest := ih sorted.2 nonzero.2
    rw [List.mem_cons, cellGet]
    by_cases same : d.1 = c.1
    · have absent : c ∉ l := fun hc => absurd same (Nat.ne_of_lt (sorted.1 c hc))
      rw [if_pos same]
      constructor
      · rintro (rfl | hc)
        · exact ⟨nonzero.1, rfl⟩
        · exact absurd hc absent
      · rintro ⟨-, value⟩
        exact .inl (Prod.ext same.symm value.symm)
    · have ne : c ≠ d := fun e => same (congrArg Prod.fst e).symm
      rw [if_neg same, ← rest]
      exact or_iff_right ne

/-- A memory's words give its bytes; a key past the last word is not listed. -/
theorem cellGet_eq_of_read {m m' : Memory} (canonical : m.wf) (canonical' : m'.wf) (h : ∀ a, m.read a = m'.read a)
    (k : Nat) : cellGet m.cells k = cellGet m'.cells k := by
  by_cases inside : k < 0x20000
  · have word := h (BitVec.ofNat 16 (k / 2))
    have address : (BitVec.ofNat 16 (k / 2)).toNat = k / 2 := by
      rw [BitVec.toNat_ofNat]
      omega
    rw [Memory.read, Memory.read, address] at word
    rcases Nat.even_or_odd' k with ⟨j, rfl | rfl⟩
    · have half : 2 * j / 2 = j := by omega
      simpa only [highByte, BitVec.extractLsb'_append_eq_left, half] using congrArg highByte word
    · have half : (2 * j + 1) / 2 = j := by omega
      simpa only [lowByte, BitVec.extractLsb'_append_eq_right, half] using congrArg lowByte word
  · have outside {n : Memory} (hn : n.wf) : cellGet n.cells k = 0 :=
      cellGet_of_not_mem fun c hc e => inside (e ▸ (hn.2 c hc).1)
    rw [outside canonical, outside canonical']

/-- Settles O11: the words give every byte, and the bytes that are not zero are the sorted list of cells. -/
theorem canonicalMemoriesThatReadTheSameAreEqual : Obligations.CanonicalMemoriesThatReadTheSameAreEqual := by
  unfold Obligations.CanonicalMemoriesThatReadTheSameAreEqual
  intro m m' canonical canonical' h
  have cells (c : Host.Cell) : c ∈ m.cells ↔ c ∈ m'.cells := by
    rw [mem_cells_iff canonical.1 (fun c hc => (canonical.2 c hc).2), cellGet_eq_of_read canonical canonical' h,
      mem_cells_iff canonical'.1 (fun c hc => (canonical'.2 c hc).2)]
  have nodup {n : Memory} (hn : n.wf) : n.cells.Nodup := hn.1.imp fun lt e => Nat.ne_of_lt lt (congrArg Prod.fst e)
  have perm := (List.perm_ext_iff_of_nodup (nodup canonical) (nodup canonical')).2 cells
  have asymmetric : ∀ c d : Host.Cell, c ∈ m.cells → d ∈ m'.cells → c.1 < d.1 → d.1 < c.1 → c = d :=
    fun _ _ _ _ lt gt => absurd lt (Nat.lt_asymm gt)
  exact congrArg Memory.mk (perm.eq_of_pairwise asymmetric canonical.1 canonical'.1)

end Sys2Proof.Machine
end

section
/-! PROOFS of the other family, reads and the step: `MemRead` and the keyboard poll (R50, R51, R65), LDI (R131), the boundary
between two steps and the blocked reads (R161, R180, R197). -/

namespace Sys2Proof.Machine

/-! ## `MemRead` and the keyboard poll -/

/-- Settles O12: the poll is the first thing a read of 0xFE00 does, and no other read does it. -/
theorem memReadPollsOnlyAtKbsr : Obligations.MemReadPollsOnlyAtKbsr := by
  unfold Obligations.MemReadPollsOnlyAtKbsr
  intro s
  exact ⟨fun _ => memRead_of_ne, fun _ => memRead_kbsr_of_ok, fun _ => memRead_kbsr_of_failed⟩

/-- The ready bit stands above the fifteen bits kept or drawn (R51). -/
theorem kbsrReady_bit15 (old : Word) (draw : Nat) : (kbsrReady old draw).getLsbD 15 = true := by
  rw [kbsrReady, BitVec.getLsbD_append]
  rfl

theorem kbsrReady_of_zero {old : Word} (draw : Nat) (h : old.extractLsb' 0 15 = 0) : kbsrReady old draw = 0x8000 := by
  rw [kbsrReady, if_pos h]
  rfl

/-- The two stores of a ready poll are to two addresses (R51). -/
theorem Memory.read_polled (m : Memory) (status data : Word) :
    ((m.write kbsrAddr status).write kbdrAddr data).read kbsrAddr = status ∧
    ((m.write kbsrAddr status).write kbdrAddr data).read kbdrAddr = data ∧
    ∀ a, a ≠ kbsrAddr → a ≠ kbdrAddr → ((m.write kbsrAddr status).write kbdrAddr data).read a = m.read a := by
  have distinct : kbsrAddr ≠ kbdrAddr := by decide
  refine ⟨?_, ?_, fun a ne ne' => ?_⟩
  · rw [Memory.read_write, if_neg distinct, Memory.read_write, if_pos rfl]
  · rw [Memory.read_write, if_pos rfl]
  · rw [Memory.read_write, if_neg ne', Memory.read_write, if_neg ne]

/-- Settles O13: the poll with a character queued, read field by field. -/
theorem readyPollMovesTheCharacter : Obligations.ReadyPollMovesTheCharacter := by
  unfold Obligations.ReadyPollMovesTheCharacter
  intro s c rest first second queued
  obtain ⟨more, later⟩ := takeTurn_input_of_cons queued
  have poll := keyboardPoll_of_input first second later (by simp [queued])
  obtain ⟨status, data, others⟩ := s.mem.read_polled (kbsrReady s.kbsr s.draws) (zext8 c)
  refine ⟨_, memRead_kbsr_of_ok poll, ?_, fun zero => ?_, data.trans (zext8_eq c), others, ?_, ?_⟩
  · exact (congrArg (BitVec.getLsbD · 15) status).trans (kbsrReady_bit15 _ _)
  · exact status.trans (kbsrReady_of_zero _ zero)
  · rw [later]; rfl
  · rw [later]; rfl

/-- Settles O14: the poll with no character queued writes zero to KBSR only. -/
theorem unreadyPollClearsKbsr : Obligations.UnreadyPollClearsKbsr := by
  unfold Obligations.UnreadyPollClearsKbsr
  intro s works empty
  obtain ⟨rest, word, others⟩ := s.takeTurn.memWrite_sets_one_word kbsrAddr 0
  have read := memRead_kbsr_of_ok (keyboardPoll_of_no_input works empty)
  rw [word] at read
  exact ⟨_, read, rest, word, others⟩

/-- A failing poll: its first host operation fails. -/
theorem keyboardPoll_of_fails {s : State} (h : s.nextTurn.fails = true) : s.keyboardPoll = .failed s.takeTurn := by
  simp only [State.keyboardPoll, hostPoll_of_fails h]

/-- A failing poll: its second host operation, the read, fails. -/
theorem keyboardPoll_of_read_fails {s : State} (works : s.nextTurn.fails = false) (queued : s.takeTurn.input ≠ [])
    (fails : s.takeTurn.nextTurn.fails = true) : s.keyboardPoll = .failed s.takeTurn.takeTurn := by
  have ready : (!s.takeTurn.input.isEmpty) = true := by simpa using queued
  simp only [State.keyboardPoll, hostPoll_of_not_fails works, ready, hostReadChar_of_failure (.inl fails)]

/-- Settles O15: only the poll can fail, and it fails at the first of its two operations that fails. -/
theorem memReadFailsOnlyThroughTheHost : Obligations.MemReadFailsOnlyThroughTheHost := by
  unfold Obligations.MemReadFailsOnlyThroughTheHost
  intro s
  refine ⟨fun a t h => ?_, fun fails => ?_, fun works queued fails => ?_⟩
  · obtain ⟨address, core, -, host⟩ := memRead_failed h
    exact ⟨address, core, host⟩
  · exact memRead_kbsr_of_failed (keyboardPoll_of_fails fails)
  · exact memRead_kbsr_of_failed (keyboardPoll_of_read_fails works queued fails)

/-! ## LDI: a pointer read, then a load (R131) -/

theorem exec_ldi_of_ok {s t : State} {dr : Reg} {off : BitVec 9} {p : Word}
    (h : s.memRead (displaced s.pc off) = .ok p t) : exec (.ldi dr off) s = .next (t.loadInto dr p) := by
  rw [← State.pcRel9_eq_displaced] at h
  simp only [exec, execLdi, h]

theorem exec_ldi_of_failed {s t : State} {dr : Reg} {off : BitVec 9}
    (h : s.memRead (displaced s.pc off) = .failed t) :
    exec (.ldi dr off) s = .next (t.afterFault .hostIOFailure) := by
  rw [← State.pcRel9_eq_displaced] at h
  simp only [exec, execLdi, h, State.raise_eq_afterFault]

/-- Settles O45: LDI is a load from the pointer, in the state the pointer read leaves. -/
theorem ldiLoadsThroughOnePointer : Obligations.LdiLoadsThroughOnePointer := by
  unfold Obligations.LdiLoadsThroughOnePointer
  intro dr off s
  refine ⟨decodeWord_formatRP9_ldi dr off, fun ne ne' => ?plain, fun p t hok => ?read, fun t => exec_ldi_of_failed⟩
  case plain => rw [exec_ldi_of_ok (memRead_of_ne ne), loadInto_of_ne dr ne']
  case read =>
    rw [exec_ldi_of_ok hok]
    exact ⟨fun v u h => by rw [loadInto_eq_afterResult dr h], fun u h => by rw [loadInto_eq_afterFault dr h]⟩

/-! ## The boundary between two steps -/

/-- A fetch whose read succeeds: the step runs the instruction fetched (R180). -/
theorem step_of_fetch_ok {s t : State} {w : Word} (run : s.runState = .running) (phase : s.phase = .between)
    (stop : s.takeTurn.stopRequested = false) (h : s.takeTurn.memRead s.pc = .ok w t) :
    step s = exec (decodeWord w) { t with ir := w, pc := s.pc + 1 } := by
  have fetched := fetch_of_memRead_ok (s := s.takeTurn) h
  rw [step_of_running run, runningStep_of_between phase stop, fetchAndExec, fetched]
  rfl

/-- A fetch whose read fails (90_conflicts.md C9). -/
theorem step_of_fetch_failed {s t : State} (run : s.runState = .running) (phase : s.phase = .between)
    (stop : s.takeTurn.stopRequested = false) (h : s.takeTurn.memRead s.pc = .failed t) :
    step s = .next t.raiseAtFetch := by
  have failed := fetch_of_memRead_failed (s := s.takeTurn) h
  rw [step_of_running run, runningStep_of_between phase stop, fetchAndExec, failed]

/-- Settles O16: the fetch read is a `MemRead`, and one of any address but 0xFE00 gives the word. -/
theorem stepRunsTheDecodedInstruction : Obligations.StepRunsTheDecodedInstruction := by
  unfold Obligations.StepRunsTheDecodedInstruction
  intro s run phase stop
  refine ⟨fun i rest ne decoded => ?_, fun w t => step_of_fetch_ok run phase stop⟩
  rw [decode_wordBytes] at decoded
  have row : decodeWord (s.mem.read s.pc) = i := congrArg Prod.fst (Except.ok.inj decoded)
  rw [step_of_fetch_ok run phase stop (memRead_of_ne ne), State.takeTurn_mem, row]
  rfl

/-- Settles O17: a failing read changes nothing of the core, and the fault entry writes neither `ir` nor `pc`. -/
theorem failedFetchWritesNeitherIrNorPc : Obligations.FailedFetchWritesNeitherIrNorPc := by
  unfold Obligations.FailedFetchWritesNeitherIrNorPc
  intro s t run phase stop failed
  obtain ⟨-, core, output, -⟩ := memRead_failed failed
  exact ⟨_, step_of_fetch_failed run phase stop failed, core.ir, core.pc, rfl, rfl, core.pc, core.regs, core.cond,
    core.mem, output⟩

/-- Every instruction has a next state: no arm faults or refuses (log 21). -/
theorem exec_next (i : Instr) (s : State) : ∃ t, exec i s = .next t := by
  cases hi : i.isTrap with
  | true =>
    obtain ⟨v, e, -⟩ := exec_of_isTrap hi s
    exact ⟨_, e⟩
  | false =>
    cases i with
    | br n z p off => exact ⟨_, exec_br n z p off s⟩
    | ldi dr off =>
      cases h : s.memRead (displaced s.pc off) with
      | ok p t => exact ⟨_, exec_ldi_of_ok h⟩
      | failed t => exact ⟨_, exec_ldi_of_failed h⟩
    | sti sr off =>
      cases h : s.memRead (displaced s.pc off) with
      | ok p t => exact ⟨_, exec_sti_of_ok h⟩
      | failed t => exact ⟨_, exec_sti_of_failed h⟩
    | _ => exact ⟨_, rfl⟩

/-- Settles O23: HALTED, a stop request, a fetch and the instruction fetched, or a waiting step going on. -/
theorem everyStepAnswersANextState : Obligations.EveryStepAnswersANextState := by
  unfold Obligations.EveryStepAnswersANextState
  intro s
  cases run : s.runState with
  | halted => exact ⟨s, step_of_halted run⟩
  | running =>
    by_cases phase : s.phase = .between
    · cases stop : s.takeTurn.stopRequested with
      | true => exact ⟨_, (step_of_running run).trans (runningStep_of_stop phase stop)⟩
      | false =>
        cases h : s.takeTurn.memRead s.pc with
        | ok w t =>
          obtain ⟨u, e⟩ := exec_next (decodeWord w) { t with ir := w, pc := s.pc + 1 }
          exact ⟨u, (step_of_fetch_ok run phase stop h).trans e⟩
        | failed t => exact ⟨_, step_of_fetch_failed run phase stop h⟩
    · exact ⟨_, (step_of_running run).trans (runningStep_of_waiting phase)⟩

/-! ## Blocked reads -/

theorem step_of_getcRead {s : State} (run : s.runState = .running) (phase : s.phase = .getcRead) :
    step s = .next s.getcRead := by
  rw [step_of_running run, runningStep_of_waiting (by simp [phase]), State.resume, phase]

theorem step_of_inRead {s : State} (run : s.runState = .running) (phase : s.phase = .inRead) :
    step s = .next s.inRead := by
  rw [step_of_running run, runningStep_of_waiting (by simp [phase]), State.resume, phase]

/-- Both blocked reads without a character wait, or honour a stop request. -/
theorem step_of_blocked {s : State} (run : s.runState = .running) (phase : s.phase = .getcRead ∨ s.phase = .inRead)
    (works : s.nextTurn.fails = false) (empty : s.takeTurn.input = []) (goes_on : s.takeTurn.inputEnded = false) :
    step s = .next (s.takeTurn.await s.phase) := by
  have read := hostReadChar_of_no_input works empty goes_on
  rcases phase with phase | phase
  · rw [step_of_getcRead run phase, getcRead_of_no_input read, phase]
  · rw [step_of_inRead run phase, inRead_of_no_input read, phase]

/-- Both blocked reads raise HostIOFailure when the read fails or the input has ended. -/
theorem step_of_blocked_failure {s : State} (run : s.runState = .running)
    (phase : s.phase = .getcRead ∨ s.phase = .inRead)
    (failure : s.nextTurn.fails = true ∨ (s.takeTurn.input = [] ∧ s.takeTurn.inputEnded = true)) :
    step s = .next (s.takeTurn.afterFault .hostIOFailure) := by
  have read := hostReadChar_of_failure failure
  rcases phase with phase | phase
  · rw [step_of_getcRead run phase, getcRead_of_failure read, State.raise_eq_afterFault]
  · rw [step_of_inRead run phase, inRead_of_failure read, State.raise_eq_afterFault]

/-- Settles O19: the request is honoured in place of the fetch, and in place of waiting. -/
theorem stopRequestHalts : Obligations.StopRequestHalts := by
  unfold Obligations.StopRequestHalts
  intro s run stop
  refine ⟨fun phase => ?_, fun phase works empty goes_on => ?_⟩
  · have kept : s.takeTurn.stop = { s.takeTurn with runState := .halted } := by
      rw [State.stop, ← phase]
      rfl
    rw [step_of_running run, runningStep_of_stop phase stop, kept]
  · rw [step_of_blocked run phase works empty goes_on, State.await_stop _ _ stop]
    rfl

/-- Settles O20: waiting leaves the phase as it is, and a failure raises the fault in the state after the turn. -/
theorem blockedReadWaits : Obligations.BlockedReadWaits := by
  unfold Obligations.BlockedReadWaits
  intro s run phase
  refine ⟨fun works empty goes_on calm => ?_, step_of_blocked_failure run phase⟩
  rw [step_of_blocked run phase works empty goes_on, State.await_block _ _ calm]
  rfl

/-! ### IN with a character at its read -/

/-- IN when its read succeeds and its echo fails; and when its flush fails. -/
theorem inRead_of_echo_failed {s s1 s2 : State} {c : Byte} (h1 : s.hostReadChar = .ok (some c) s1)
    (h2 : s1.hostWriteChar c = .failed s2) : s.inRead = s2.afterFault .hostIOFailure := by
  simp only [State.inRead, h1, h2, State.raise_eq_afterFault]

theorem inRead_of_flush_failed {s s1 s2 s3 : State} {c : Byte} {u : Unit} (h1 : s.hostReadChar = .ok (some c) s1)
    (h2 : s1.hostWriteChar c = .ok u s2) (h3 : s2.hostFlush = .failed s3) :
    s.inRead = s3.afterFault .hostIOFailure := by
  simp only [State.inRead, h1, h2, h3, State.raise_eq_afterFault]

section Arrival

variable {s : State} {c : Byte} {rest : List Byte} (queued : s.takeTurn.input = c :: rest)
include queued

/-- Read, echo and flush succeed: three operations of the host. -/
theorem inRead_of_worksFor (works : s.HostWorksFor 3) :
    s.inRead = { State.takeTurn^[2] { s.takeTurn with input := rest } with
      regs := s.regs.set .r0 (zext8 c), output := s.output ++ [c], phase := .between } := by
  have read := hostReadChar_of_input works.nextTurn_fails queued
  have echo := hostWriteChar_of_not_fails (s := { s.takeTurn with input := rest }) c (works 1 (by decide))
  rw [inRead_of_ok read echo (hostFlush_of_not_fails (works 2 (by decide)))]
  rfl

/-- The echo is the first operation that fails: the character is taken. -/
theorem inRead_of_echo_fails (fails : s.FailsFirstAt 1) :
    s.inRead = State.afterFault (State.takeTurn { s.takeTurn with input := rest }) .hostIOFailure := by
  have read := hostReadChar_of_input fails.1.nextTurn_fails queued
  rw [inRead_of_echo_failed read (hostWriteChar_of_fails c fails.2)]

/-- The flush is the first operation that fails: the echo stands. -/
theorem inRead_of_flush_fails (fails : s.FailsFirstAt 2) :
    s.inRead = State.afterFault { State.takeTurn^[2] { s.takeTurn with input := rest } with
      output := s.output ++ [c] } .hostIOFailure := by
  have read := hostReadChar_of_input fails.1.nextTurn_fails queued
  have echo := hostWriteChar_of_not_fails (s := { s.takeTurn with input := rest }) c (fails.1 1 (by decide))
  rw [inRead_of_flush_failed read echo (hostFlush_of_fails fails.2)]
  rfl

end Arrival

/-- Settles O21: GETC's read with a character, and IN's with its echo and flush working or failing. -/
theorem arrivalWakesABlockedRead : Obligations.ArrivalWakesABlockedRead := by
  unfold Obligations.ArrivalWakesABlockedRead
  intro s c rest run queued
  refine ⟨fun phase works => ?_, fun phase reliable => ?_, fun phase fails => ?_, fun phase fails => ?_⟩
  · rw [step_of_getcRead run phase, getcRead_of_ok (hostReadChar_of_input works queued), zext8_eq]
    rfl
  · rw [step_of_inRead run phase, inRead_of_worksFor queued (reliable.worksFor 3), zext8_eq]
  · rw [step_of_inRead run phase, inRead_of_echo_fails queued fails]
  · rw [step_of_inRead run phase, inRead_of_flush_fails queued fails]

end Sys2Proof.Machine
end

section
/-! PROOFS of the other family, rules about all instructions: the frames of the table under R23, of R24, R26 to R28, R52, R58
and R159, and what the host can touch (R162, R185, R196). -/

namespace Sys2Proof.Machine

/-! ## Registers -/

/-- R7 is a register every TRAP writes (R150). -/
theorem writesReg_link {i : Instr} (hi : i.isTrap = true) : i.writesReg .r7 = true := by
  cases i with
  | trap | getc | out | puts | inChar | putsp | halt => rfl
  | _ => cases hi

theorem PlainEffect.reg {i : Instr} {s t : State} (h : PlainEffect i s t) {r : Reg} (hr : i.writesReg r = false) :
    t.reg r = s.reg r := by
  cases h with
  | jumped => rfl
  | linked p _ writes =>
    have ne : r ≠ .r7 := by rintro rfl; rw [writes] at hr; cases hr
    exact RegFile.get_set_of_ne s.regs s.pc ne
  | result dr v u reads _ writes =>
    have ne : r ≠ dr := by rintro rfl; rw [writes] at hr; cases hr
    rw [State.setRegCc_eq]
    exact (RegFile.get_set_of_ne u.regs v ne).trans (reads.reg r)
  | stored a v u reads => exact reads.reg r
  | undefined => rfl
  | failed u reads => exact reads.reg r

/-- Settles O26: R7 apart, a service can write R0 only, and that is listed where it can. -/
theorem onlyListedRegistersChange : Obligations.OnlyListedRegistersChange := by
  unfold Obligations.OnlyListedRegistersChange
  intro i s t r h hr
  cases hi : i.isTrap with
  | false => exact (exec_plain_spec hi h).reg hr
  | true =>
    obtain ⟨frame, -, kept⟩ := exec_trap_spec hi h
    have ne : r ≠ .r7 := by rintro rfl; rw [writesReg_link hi] at hr; cases hr
    have linked : s.link.reg r = s.reg r := by rw [State.reg_link, if_neg ne]
    by_cases zero : r = .r0
    · subst zero
      exact (State.reg_congr (kept hr) .r0).trans linked
    · exact (frame.regs r zero).trans linked

/-! ## The flags -/

theorem flagOf_bits (v : Word) :
    (flagOf v).bits = if v = 0 then 0b010 else if v.getLsbD 15 then 0b100 else 0b001 := by
  unfold flagOf
  split
  · rfl
  · split <;> rfl

/-- A flag-setting instruction writes result and flag together, or its read has failed and it writes neither (R135). -/
theorem PlainEffect.flags {i : Instr} {s t : State} {dr : Reg} (h : PlainEffect i s t) (flag : i.flagReg = some dr)
    (run : s.runState = .running) :
    (t.runState = .running ∧ t.cond = flagOf (t.reg dr)) ∨
      (t.faultCause = .hostIOFailure ∧ t.cond = s.cond ∧ t.reg dr = s.reg dr) := by
  cases h with
  | jumped p _ none => rw [none] at flag; cases flag
  | linked p _ _ none => rw [none] at flag; cases flag
  | stored a v u _ _ none => rw [none] at flag; cases flag
  | undefined op => rcases op with rfl | rfl <;> cases flag
  | failed u reads => exact .inr ⟨rfl, reads.cond, reads.reg dr⟩
  | result d v u reads _ _ some =>
    obtain rfl : d = dr := Option.some.inj (some.symm.trans flag)
    exact .inl ⟨reads.runState.trans run, rfl⟩

theorem PlainEffect.cond {i : Instr} {s t : State} (h : PlainEffect i s t) (flag : i.flagReg = none) :
    t.cond = s.cond := by
  cases h with
  | jumped => rfl
  | linked => rfl
  | stored a v u reads => exact reads.cond
  | undefined => rfl
  | failed u reads => exact reads.cond
  | result d v u _ _ _ some => rw [some] at flag; cases flag

theorem isTrap_of_flagReg {i : Instr} {dr : Reg} (flag : i.flagReg = some dr) : i.isTrap = false := by
  cases i with
  | trap | getc | out | puts | inChar | putsp | halt => cases flag
  | _ => rfl

/-- Settles O27: the flag is that of the value written, and no effect without a result writes it. -/
theorem flagsFollowTheDestination : Obligations.FlagsFollowTheDestination := by
  unfold Obligations.FlagsFollowTheDestination
  refine ⟨fun c => by cases c <;> decide, fun i dr s t flag h run => ?_, fun i s t flag h => ?_⟩
  · rw [← flagOf_bits]
    exact ((exec_plain_spec (isTrap_of_flagReg flag) h).flags flag run).imp_left
      fun ⟨run', cond⟩ => ⟨run', congrArg Cond.bits cond⟩
  · cases hi : i.isTrap with
    | false => exact (exec_plain_spec hi h).cond flag
    | true => exact (exec_trap_spec hi h).1.cond

/-! ## `pc` and the latch -/

theorem PlainEffect.pc_ir {i : Instr} {s t : State} (h : PlainEffect i s t) :
    t.ir = s.ir ∧ (i.writesPc = false → t.pc = s.pc) := by
  cases h with
  | jumped p writesPc =>
    refine ⟨rfl, fun hp => ?_⟩
    rcases writesPc with w | rfl
    · rw [w] at hp; cases hp
    · rfl
  | linked p writesPc => exact ⟨rfl, fun hp => by rw [writesPc] at hp; cases hp⟩
  | result d v u reads => exact ⟨reads.ir, fun _ => reads.pc⟩
  | stored a v u reads => exact ⟨reads.ir, fun _ => reads.pc⟩
  | undefined => exact ⟨rfl, fun _ => rfl⟩
  | failed u reads => exact ⟨reads.ir, fun _ => reads.pc⟩

/-- Settles O28: no effect writes `ir`, and only the jumps write `pc`. -/
theorem pcAndLatchAreLeftAlone : Obligations.PcAndLatchAreLeftAlone := by
  unfold Obligations.PcAndLatchAreLeftAlone
  intro i s t h
  cases hi : i.isTrap with
  | false => exact (exec_plain_spec hi h).pc_ir
  | true =>
    have frame := (exec_trap_spec hi h).1
    exact ⟨frame.ir, fun _ => frame.pc⟩

/-! ## Memory -/

/-- The reads of an instruction change KBSR and KBDR at most, and nothing if it does not poll (R50). -/
theorem read_of_reads {i : Instr} {s u : State} {a : Word} (reads : SameButKeyboard s u)
    (quiet : polls i s = false → u = s) (ha : polls i s = true → a ≠ 0xFE00 ∧ a ≠ 0xFE02) :
    u.mem.read a = s.mem.read a := by
  cases hp : polls i s with
  | false => rw [quiet hp]
  | true => exact reads.mem a (ha hp).1 (ha hp).2

theorem PlainEffect.read {i : Instr} {s t : State} {a : Word} (h : PlainEffect i s t) (hs : storeAddr i s ≠ some a)
    (ha : polls i s = true → a ≠ 0xFE00 ∧ a ≠ 0xFE02) : t.mem.read a = s.mem.read a := by
  cases h with
  | jumped => rfl
  | linked => rfl
  | result d v u reads quiet =>
    have kept := read_of_reads reads quiet ha
    exact kept
  | stored b v u reads quiet _ stores =>
    have ne : a ≠ b := by rintro rfl; exact hs stores
    rw [State.memWrite_mem, Memory.read_write, if_neg ne]
    exact read_of_reads reads quiet ha
  | undefined => rfl
  | failed u reads polled => exact reads.mem a (ha polled).1 (ha polled).2

/-- Settles O29: of the effects only a store writes memory, and the reads before it poll at most. -/
theorem onlyTheStoredWordChanges : Obligations.OnlyTheStoredWordChanges := by
  unfold Obligations.OnlyTheStoredWordChanges
  intro i s t a h hs ha
  cases hi : i.isTrap with
  | false => exact (exec_plain_spec hi h).read hs ha
  | true => rw [(exec_trap_spec hi h).1.mem, State.link_mem]

/-! ## The host -/

/-- The state with the host's side of another: its streams, its turns and its stop request. -/
def State.withHost (s h : State) : State :=
  { s with input := h.input, inputEnded := h.inputEnded, output := h.output, stopRequested := h.stopRequested,
           schedule := h.schedule }

/-- Two states with the same core differ in the host's side only. -/
theorem SameCore.eq_withHost {s s' : State} (h : SameCore s s') : s' = s.withHost s' := by
  obtain ⟨h1, h2, h3, h4, h5, h6, h7, h8, h9, h10, h11, h12⟩ := h
  cases s'
  simp only at h1 h2 h3 h4 h5 h6 h7 h8 h9 h10 h11 h12
  subst h1 h2 h3 h4 h5 h6 h7 h8 h9 h10 h11 h12
  rfl

theorem sameCore_withHost (s h : State) : SameCore s (s.withHost h) :=
  ⟨rfl, rfl, rfl, rfl, rfl, rfl, rfl, rfl, rfl, rfl, rfl, rfl⟩

/-- A read that does not poll does not meet the host. -/
theorem loadInto_withHost {s : State} {a : Word} (dr : Reg) (ha : a ≠ kbsrAddr) (h : State) :
    (s.withHost h).loadInto dr a = (s.loadInto dr a).withHost h := by
  rw [loadInto_of_ne dr ha, loadInto_of_ne dr ha]
  rfl

/-- An instruction that is no TRAP and does not poll takes the host's side along unread and unchanged. -/
theorem exec_withHost {i : Instr} {s : State} (hi : i.isTrap = false) (hp : polls i s = false) :
    ∃ t, exec i s = .next t ∧ ∀ h, exec i (s.withHost h) = .next (t.withHost h) := by
  cases i with
  | br n z p off =>
    refine ⟨_, exec_br n z p off s, fun h => ?_⟩
    rw [exec_br]
    rfl
  | ld dr off =>
    have ne : displaced s.pc off ≠ kbsrAddr := by simpa [polls, State.pcRel9_eq_displaced] using hp
    refine ⟨_, exec_ld dr off s, fun h => ?_⟩
    rw [exec_ld, ← loadInto_withHost dr ne]
    rfl
  | ldr dr base off =>
    have ne : displaced (s.reg base) off ≠ kbsrAddr := by simpa [polls, State.baseOffset_eq_displaced] using hp
    refine ⟨_, exec_ldr dr base off s, fun h => ?_⟩
    rw [exec_ldr, ← loadInto_withHost dr ne]
    rfl
  | ldi dr off =>
    obtain ⟨ne, ne'⟩ : displaced s.pc off ≠ kbsrAddr ∧ s.mem.read (displaced s.pc off) ≠ kbsrAddr := by
      simpa [polls, State.pcRel9_eq_displaced] using hp
    refine ⟨_, exec_ldi_of_ok (memRead_of_ne ne), fun h => ?_⟩
    rw [exec_ldi_of_ok (memRead_of_ne (s := s.withHost h) ne), ← loadInto_withHost dr ne']
    rfl
  | sti sr off =>
    have ne : displaced s.pc off ≠ kbsrAddr := by simpa [polls, State.pcRel9_eq_displaced] using hp
    exact ⟨_, exec_sti_of_ok (memRead_of_ne ne), fun h => exec_sti_of_ok (memRead_of_ne (s := s.withHost h) ne)⟩
  | trap | getc | out | puts | inChar | putsp | halt => cases hi
  | _ => exact ⟨_, rfl, fun _ => rfl⟩

/-- Settles O30: with the host's side of the other state put in, the two executions are one; with its own, it is left. -/
theorem hostMattersOnlyToTrapsAndPolls : Obligations.HostMattersOnlyToTrapsAndPolls := by
  unfold Obligations.HostMattersOnlyToTrapsAndPolls
  intro i s s' hi hp same
  obtain ⟨t, h, along⟩ := exec_withHost hi hp
  have own : t = t.withHost s := Host.Outcome.next.inj (h.symm.trans (along s))
  refine ⟨t, t.withHost s', h, ?_, sameCore_withHost t s', ?_⟩
  · rw [same.eq_withHost]
    exact along s'
  · rw [own]
    exact ⟨rfl, rfl, rfl, rfl, rfl⟩

/-! ## The fault record -/

/-- The record is as before, or all of it is written and the machine is HALTED (R186). -/
def RecordWhole (s t : State) : Prop :=
  (t.faultCause = s.faultCause ∧ t.faultIr = s.faultIr ∧ t.faultAddr = s.faultAddr) ∨
    (t.runState = .halted ∧ t.faultCause ≠ .none ∧ t.faultIr = s.ir ∧ t.faultAddr = s.pc - 1)

theorem SameFault.recordWhole {s t : State} (h : SameFault s t) : RecordWhole s t := .inl ⟨h.cause, h.ir, h.addr⟩

theorem PlainEffect.recordWhole {i : Instr} {s t : State} (h : PlainEffect i s t) : RecordWhole s t := by
  cases h with
  | jumped => exact .inl ⟨rfl, rfl, rfl⟩
  | linked => exact .inl ⟨rfl, rfl, rfl⟩
  | result d v u reads => exact .inl ⟨reads.faultCause, reads.faultIr, reads.faultAddr⟩
  | stored a v u reads => exact .inl ⟨reads.faultCause, reads.faultIr, reads.faultAddr⟩
  | undefined => exact .inr ⟨rfl, nofun, rfl, rfl⟩
  | failed u reads => exact .inr ⟨rfl, nofun, reads.ir, congrArg (· - 1) reads.pc⟩

theorem TrapEnd.recordWhole {s t : State} (h : TrapEnd s t) : RecordWhole s t := by
  cases h with
  | ended _ _ _ fault => exact fault.recordWhole
  | faulted run _ _ cause ir addr =>
    refine .inr ⟨run, fun none => ?_, ir, addr⟩
    rcases cause with c | c <;> rw [c] at none <;> cases none
  | service p _ ends =>
    cases ends with
    | completed _ _ fault => exact fault.recordWhole
    | stopped _ _ fault => exact fault.recordWhole
    | waiting _ _ fault => exact fault.recordWhole
    | faulted _ run cause ir addr => exact .inr ⟨run, fun none => (by rw [cause] at none; cases none), ir, addr⟩

/-- Settles O31: every fatal error is one fault entry, and nothing else writes the record. -/
theorem faultRecordIsWrittenWholeAndHalts : Obligations.FaultRecordIsWrittenWholeAndHalts := by
  unfold Obligations.FaultRecordIsWrittenWholeAndHalts
  intro i s t h
  cases hi : i.isTrap with
  | false => exact (exec_plain_spec hi h).recordWhole
  | true => exact (exec_trap_spec hi h).2.1.recordWhole

/-! ## The services -/

/-- Only GETC and IN can write R0; a TRAP term with their vector is not well formed. -/
theorem writesReg_zero {i : Instr} (hi : i.isTrap = true) (hw : i.wellFormed = true) (h1 : i ≠ .getc) (h2 : i ≠ .inChar) :
    i.writesReg .r0 = false := by
  cases i with
  | trap v =>
    have ne : v ≠ 0x20 ∧ v ≠ 0x23 := by constructor <;> rintro rfl <;> cases hw
    simpa [Instr.writesReg] using ne
  | getc => exact absurd rfl h1
  | inChar => exact absurd rfl h2
  | out | puts | putsp | halt => rfl
  | _ => cases hi

/-- Settles O32: the frame of the services, after the link. -/
theorem servicesTouchOnlyWhatTheirRulesName : Obligations.ServicesTouchOnlyWhatTheirRulesName := by
  unfold Obligations.ServicesTouchOnlyWhatTheirRulesName
  intro i s t hi hw h
  obtain ⟨frame, -, kept⟩ := exec_trap_spec hi h
  refine ⟨frame.pc, frame.cond, frame.ir, frame.mem, ?_, fun r ne7 ne0 => ?_, fun h1 h2 => ?_, frame.output⟩
  · rw [frame.regs .r7 (by decide), State.reg_link, if_pos rfl]
  · rw [frame.regs r ne0, State.reg_link, if_neg ne7]
  · rw [State.reg_congr (kept (writesReg_zero hi hw h1 h2)) .r0, State.reg_link, if_neg (by decide)]

/-- What a service that has raised HostIOFailure leaves (R162, R186). -/
theorem TrapEnd.of_hostIOFailure {s t : State} (h : TrapEnd s t) (before : s.faultCause = .none)
    (cause : t.faultCause = .hostIOFailure) :
    t.runState = .halted ∧ t.regs = s.regs ∧ t.faultIr = s.ir ∧ t.faultAddr = s.pc - 1 ∧ t.phase = .between := by
  have kept (same : SameFault s t) : False := by
    rw [same.cause, before] at cause
    cases cause
  cases h with
  | ended _ _ _ fault => exact (kept fault).elim
  | faulted run phase regs _ ir addr => exact ⟨run, regs, ir, addr, phase⟩
  | service p _ ends =>
    cases ends with
    | completed _ _ fault => exact (kept fault).elim
    | stopped _ _ fault => exact (kept fault).elim
    | waiting _ _ fault => exact (kept fault).elim
    | faulted phase run _ ir addr regs => exact ⟨run, regs, ir, addr, phase⟩

/-- Settles O33: the turns a service takes say whether the host failed it, and a fault ends it where it stood. -/
theorem failedServiceKeepsWhatItHasDone : Obligations.FailedServiceKeepsWhatItHasDone := by
  unfold Obligations.FailedServiceKeepsWhatItHasDone
  intro i s t hi before h
  obtain ⟨frame, ends, -⟩ := exec_trap_spec hi h
  obtain ⟨failed, ⟨used, turns, any⟩, raises, only⟩ := exec_trap_failsAsTheHost hi h
  have some_failed : (∃ turn ∈ used, turn.fails = true) ↔ failed = true := by rw [← any, List.any_eq_true]
  refine ⟨used, turns, fun host => raises (some_failed.1 host), fun cause => ?_⟩
  obtain ⟨run, regs, ir, addr, phase⟩ := ends.of_hostIOFailure before cause
  refine ⟨?_, run, regs, frame.output, ir, addr, phase⟩
  rw [some_failed]
  exact (only cause).resolve_left fun c => by rw [State.link_faultCause, before] at c; cases c

end Sys2Proof.Machine
end

section
/-! PROOFS of the other family, the services: GETC, OUT, PUTS, IN, PUTSP and HALT, working and failing (R150 to R157, R161,
R162, R185, R197, R198). -/

namespace Sys2Proof.Machine

/-! ## The gateway -/

/-- The vector alone selects: the decoder's rows and the gateway's arms are the same services (R151). -/
theorem exec_trap_eq_exec_decodeTrap (v : BitVec 8) (s : State) : exec (.trap v) s = exec (decodeTrap v) s := by
  have service {n : Nat} {i : Instr} (hv : v.toNat = n) (hn : n < 256)
      (hi : exec (.trap (BitVec.ofNat 8 n)) s = exec i s) : exec (.trap v) s = exec i s := by
    have e : v = BitVec.ofNat 8 n := BitVec.eq_of_toNat_eq (by rw [hv, BitVec.toNat_ofNat]; omega)
    rw [e, hi]
  unfold decodeTrap
  split
  case h_7 => rfl
  all_goals next hv => exact service hv (by decide) rfl

theorem decodeTrap_of_range {v : BitVec 8} (h : v.toNat < 0x20 ∨ 0x25 < v.toNat) : decodeTrap v = .trap v := by
  refine decodeTrap_of_not_defined ?_
  simp only [definedVector, Bool.and_eq_false_iff, decide_eq_false_iff_not]
  omega

/-- Settles O51: format T keeps the vector, and decoder and gateway agree on it. -/
theorem trapDispatchesOnItsVector : Obligations.TrapDispatchesOnItsVector := by
  unfold Obligations.TrapDispatchesOnItsVector
  exact ⟨decodeWord_formatT, rfl, rfl, rfl, rfl, rfl, rfl, fun _ => decodeTrap_of_range, exec_trap_eq_exec_decodeTrap⟩

/-! ## GETC -/

/-- Settles O53: the ways its one read can go, in the state that has the link. -/
theorem getcReadsOneCharacter : Obligations.GetcReadsOneCharacter := by
  unfold Obligations.GetcReadsOneCharacter
  intro s
  have getc : exec .getc s = .next s.link.getcRead := rfl
  rw [getc]
  refine ⟨fun c rest works queued => ?_, fun works empty goes_on calm => ?_, fun works empty goes_on stop => ?_,
    fun failure => ?_⟩
  · rw [getcRead_of_ok (hostReadChar_of_input (s := s.link) works queued), zext8_eq]
    rfl
  · have read := hostReadChar_of_no_input (s := s.link) works empty goes_on
    rw [getcRead_of_no_input read, State.await_block s.link.takeTurn _ calm]
    rfl
  · have read := hostReadChar_of_no_input (s := s.link) works empty goes_on
    rw [getcRead_of_no_input read, State.await_stop s.link.takeTurn _ stop]
    rfl
  · rw [getcRead_of_failure (hostReadChar_of_failure (s := s.link) failure), State.raise_eq_afterFault]
    rfl

/-! ## OUT -/

/-- The host's next two operations, one by one. -/
theorem State.HostWorksFor.of_two {s : State} (h : s.nextTurn.fails = false) (h' : s.takeTurn.nextTurn.fails = false) :
    s.HostWorksFor 2 := by
  intro j hj
  cases j with
  | zero => exact h
  | succ j =>
    obtain rfl : j = 0 := by omega
    exact h'

theorem State.FailsFirstAt.of_first {s : State} (h : s.nextTurn.fails = true) : s.FailsFirstAt 0 :=
  ⟨fun _ hj => absurd hj (Nat.not_lt_zero _), h⟩

theorem State.FailsFirstAt.of_second {s : State} (h : s.nextTurn.fails = false) (h' : s.takeTurn.nextTurn.fails = true) :
    s.FailsFirstAt 1 := by
  refine ⟨fun j hj => ?_, h'⟩
  obtain rfl : j = 0 := by omega
  exact h

/-- OUT is one character written and a flush. -/
theorem exec_out (s : State) :
    exec .out s = .next (s.link.writeThenFlush [(s.reg .r0).setWidth 8] State.complete) := by
  rw [← lowByte_eq]
  exact congrArg Host.Outcome.next (outService_eq s.link)

/-- Settles O54: the write and the flush are the two operations that can fail. -/
theorem outWritesTheLowByte : Obligations.OutWritesTheLowByte := by
  unfold Obligations.OutWritesTheLowByte
  intro s
  rw [exec_out]
  refine ⟨fun h h' => ?_, fun h => ?_, fun h h' => ?_⟩
  · rw [writeThenFlush_link _ _ (.of_two h h')]
    rfl
  · rw [writeThenFlush_link_failed _ _ (Nat.zero_le _) (.of_first h)]
    rfl
  · rw [writeThenFlush_link_failed _ _ (Nat.le_refl 1) (.of_second h h')]
    rfl

/-! ## HALT -/

/-- HALT is the notice written, a flush, and HALTED. -/
theorem exec_halt (s : State) :
    exec .halt s = .next (s.link.writeThenFlush s.cfg.haltNotice fun t => { t.complete with runState := .halted }) := rfl

/-- Settles O59: the notice's writes and the flush are the operations that can fail. -/
theorem haltAnnouncesAndHalts : Obligations.HaltAnnouncesAndHalts := by
  unfold Obligations.HaltAnnouncesAndHalts
  intro s
  rw [exec_halt]
  refine ⟨fun reliable => ?_, fun k hk fails => ?_⟩
  · rw [writeThenFlush_link _ _ (reliable.worksFor _)]
    rfl
  · rw [writeThenFlush_link_failed _ _ hk fails]

/-! ## PUTS and PUTSP -/

/-- What a string service writes: the characters of the first `n` words from R0 on. -/
def State.stringText (s : State) (chars : Word → List Byte) (n : Nat) : List Byte :=
  scanned chars s.mem (s.reg .r0) n

theorem stringText_putsChars (s : State) (n : Nat) : s.stringText putsChars n = s.putsText n := scanned_putsChars s n

theorem stringText_putspChars (s : State) (n : Nat) : s.stringText putspChars n = s.putspText n :=
  scanned_putspChars s n

theorem exec_puts (s : State) : exec .puts s = .next (s.link.scanService putsChars .putsScan) := rfl

theorem exec_putsp (s : State) : exec .putsp s = .next (s.link.scanService putspChars .putspScan) := rfl

section StringService

variable {s : State} (chars : Word → List Byte) (p : Phase) {n : Nat}
  (nonzero : ∀ k < n, s.mem.read (s.reg .r0 + BitVec.ofNat 16 k) ≠ 0)
include nonzero

/-- A string that ends: its characters, then a flush. -/
theorem scanService_link_of_zero (hn : n < 65536) (zero : s.mem.read (s.reg .r0 + BitVec.ofNat 16 n) = 0) :
    s.link.scanService chars p = s.link.writeThenFlush (s.stringText chars n) State.complete :=
  scanService_of_zero (s := s.link) chars p hn nonzero zero

/-- A write that fails among the words before any zero word, whether or not the string ends. -/
theorem scanService_link_of_failsFirstAt {k : Nat} (hn : n ≤ 65536) (hk : k < (s.stringText chars n).length)
    (fails : s.FailsFirstAt k) :
    s.link.scanService chars p =
      (s.afterOutput (k + 1) ((s.stringText chars n).take k)).afterFault .hostIOFailure := by
  have failed : s.link.scanService chars p =
      (s.link.wrote ((s.stringText chars n).take k)).takeTurn.raise .hostIOFailure :=
    scanService_of_failsFirstAt (s := s.link) chars p hn nonzero hk fails.link
  rw [failed, link_wrote_takeTurn, List.length_take_of_le (Nat.le_of_lt hk)]
  rfl

/-- The ways a string service goes: to its end, to a failing flush, to a failing write. -/
theorem scanService_link_outcomes :
    (n < 65536 → s.mem.read (s.reg .r0 + BitVec.ofNat 16 n) = 0 →
      (s.HostReliable → s.link.scanService chars p =
        { s.afterOutput ((s.stringText chars n).length + 1) (s.stringText chars n) with phase := .between }) ∧
      (s.FailsFirstAt (s.stringText chars n).length → s.link.scanService chars p =
        (s.afterOutput ((s.stringText chars n).length + 1) (s.stringText chars n)).afterFault .hostIOFailure)) ∧
    (∀ k, n ≤ 65536 → k < (s.stringText chars n).length → s.FailsFirstAt k → s.link.scanService chars p =
      (s.afterOutput (k + 1) ((s.stringText chars n).take k)).afterFault .hostIOFailure) := by
  refine ⟨fun hn zero => ?_, fun k hn hk => scanService_link_of_failsFirstAt chars p nonzero hn hk⟩
  rw [scanService_link_of_zero chars p nonzero hn zero]
  refine ⟨fun reliable => ?_, fun fails => ?_⟩
  · rw [writeThenFlush_link _ _ (reliable.worksFor _)]
    rfl
  · rw [writeThenFlush_link_failed _ _ (Nat.le_refl _) fails, List.take_length]

end StringService

/-- Settles O55: PUTS writes one character for each word. -/
theorem putsWritesUpToTheZeroWord : Obligations.PutsWritesUpToTheZeroWord := by
  unfold Obligations.PutsWritesUpToTheZeroWord
  intro s n nonzero
  have outcomes := scanService_link_outcomes putsChars .putsScan nonzero
  simp only [stringText_putsChars, length_putsText] at outcomes
  simpa only [exec_puts, Host.Outcome.next.injEq] using outcomes

/-- Settles O56: PUTSP writes one or two characters for each word. -/
theorem putspWritesTwoCharactersPerWord : Obligations.PutspWritesTwoCharactersPerWord := by
  unfold Obligations.PutspWritesTwoCharactersPerWord
  intro s n nonzero
  have outcomes := scanService_link_outcomes putspChars .putspScan nonzero
  simp only [stringText_putspChars] at outcomes
  simpa only [exec_putsp, Host.Outcome.next.injEq] using outcomes

/-! ### Scans that do not end -/

/-- A lap changes nothing of the core but the phase. -/
theorem sameCore_lap (s : State) (out : List Byte) (p : Phase) :
    SameCore { s with phase := p } { s.wrote out with phase := p } :=
  have h := sameCore_wrote s out
  ⟨h.regs, h.pc, h.cond, h.ir, h.mem, h.runState, h.faultCause, h.faultIr, h.faultAddr, rfl, h.cfg, h.draws⟩

theorem scanService_link_of_no_zero {s : State} (chars : Word → List Byte) (p : Phase) (reliable : s.HostReliable)
    (nonzero : ∀ a, s.mem.read a ≠ 0) :
    SameCore { s with regs := s.regs.set .r7 s.pc, phase := p } (s.link.scanService chars p) := by
  rw [scanService_of_no_zero (s := s.link) chars p reliable nonzero]
  exact sameCore_lap s.link _ p

/-- Settles O57: a lap that meets no zero word ends in the scan's own phase. -/
theorem scanWithoutAZeroWordHangs : Obligations.ScanWithoutAZeroWordHangs := by
  unfold Obligations.ScanWithoutAZeroWordHangs
  intro s reliable nonzero
  exact ⟨⟨_, exec_puts s, scanService_link_of_no_zero putsChars .putsScan reliable nonzero⟩,
    ⟨_, exec_putsp s, scanService_link_of_no_zero putspChars .putspScan reliable nonzero⟩⟩

theorem step_of_putsScan {s : State} (run : s.runState = .running) (phase : s.phase = .putsScan) :
    step s = .next (s.scanService putsChars .putsScan) := by
  rw [step_of_running run, runningStep_of_waiting (by simp [phase]), State.resume, phase]
  rfl

theorem step_of_putspScan {s : State} (run : s.runState = .running) (phase : s.phase = .putspScan) :
    step s = .next (s.scanService putspChars .putspScan) := by
  rw [step_of_running run, runningStep_of_waiting (by simp [phase]), State.resume, phase]
  rfl

/-- A lap with a working host: the same core, in the same scan, and a character at least for each word. -/
theorem scanService_lap {s : State} {chars : Word → List Byte} {p : Phase} (writes : ∀ w, 1 ≤ (chars w).length)
    (phase : s.phase = p) (nonzero : ∀ a, s.mem.read a ≠ 0) (reliable : s.HostReliable) :
    SameCore s (s.scanService chars p) ∧ s.output.length + 65536 ≤ (s.scanService chars p).output.length ∧
      s.output <+: (s.scanService chars p).output := by
  have lap_words : lap = 65536 := rfl
  have long := le_length_scanned writes s.mem (s.reg .r0) lap
  rw [scanService_of_no_zero chars p reliable nonzero, ← phase]
  generalize scanned chars s.mem (s.reg .r0) lap = out at long ⊢
  refine ⟨sameCore_lap s out s.phase, ?_, ⟨out, rfl⟩⟩
  rw [wrote_output, List.length_append]
  omega

theorem wrote_takeTurn (s : State) (out : List Byte) :
    (s.wrote out).takeTurn = { State.takeTurn^[out.length + 1] s with output := s.output ++ out } := by
  rw [Function.iterate_succ_apply']
  rfl

/-- A lap in which a write fails. -/
theorem scanService_lap_of_failsFirstAt {s : State} (chars : Word → List Byte) (p : Phase)
    (nonzero : ∀ a, s.mem.read a ≠ 0) {k : Nat} (hk : k < (s.stringText chars 65536).length) (fails : s.FailsFirstAt k) :
    s.scanService chars p = State.afterFault { State.takeTurn^[k + 1] s with
      output := s.output ++ (s.stringText chars 65536).take k } .hostIOFailure := by
  have failed : s.scanService chars p =
      (s.wrote ((s.stringText chars 65536).take k)).takeTurn.raise .hostIOFailure :=
    scanService_of_failsFirstAt chars p (Nat.le_refl _) (fun _ _ => nonzero _) hk fails
  rw [failed, wrote_takeTurn, List.length_take_of_le (Nat.le_of_lt hk)]
  rfl

/-- Settles O22: each step in the scan is one more lap, over a memory that the invariant says has no zero word. -/
theorem endlessScanGoesOnForEver : Obligations.EndlessScanGoesOnForEver := by
  unfold Obligations.EndlessScanGoesOnForEver
  intro s inv phase
  have nonzero := inv.endless phase
  have run : s.runState = .running := (inv.waiting (by rcases phase with h | h <;> simp [h])).1
  refine ⟨fun reliable => ?_, fun k phase hk fails => ?_, fun k phase hk fails => ?_⟩
  · rcases phase with phase | phase
    · obtain ⟨same, longer, kept⟩ :=
        scanService_lap (chars := putsChars) (fun w => Nat.le_refl 1) phase nonzero reliable
      exact ⟨_, step_of_putsScan run phase, same, same.runState.trans run, longer, kept⟩
    · obtain ⟨same, longer, kept⟩ :=
        scanService_lap (chars := putspChars) (fun w => Nat.succ_le_succ (Nat.zero_le _)) phase nonzero reliable
      exact ⟨_, step_of_putspScan run phase, same, same.runState.trans run, longer, kept⟩
  · have hk' : k < (s.stringText putsChars 65536).length := by rwa [stringText_putsChars, length_putsText]
    rw [step_of_putsScan run phase, scanService_lap_of_failsFirstAt putsChars _ nonzero hk' fails, stringText_putsChars]
  · rw [step_of_putspScan run phase, scanService_lap_of_failsFirstAt putspChars _ nonzero hk fails,
      stringText_putspChars]

/-! ## IN -/

/-- IN is the prompt written, a flush, and its read. -/
theorem exec_inChar (s : State) : exec .inChar s = .next (s.link.writeThenFlush s.cfg.inPrompt State.inRead) := rfl

/-- IN at its read: the link made and the prompt written and flushed. -/
def State.atInRead (s : State) : State := s.afterOutput (s.cfg.inPrompt.length + 1) s.cfg.inPrompt

theorem exec_inChar_of_prompt {s : State} (works : s.HostWorksFor (s.cfg.inPrompt.length + 1)) :
    exec .inChar s = .next s.atInRead.inRead := by
  rw [exec_inChar, writeThenFlush_link _ _ works]
  rfl

/-- The host's turn at the read. -/
theorem atInRead_takeTurn (s : State) :
    s.atInRead.takeTurn = s.afterOutput (s.cfg.inPrompt.length + 2) s.cfg.inPrompt := by
  rw [State.atInRead, State.afterOutput, State.afterOutput, Function.iterate_succ_apply' _ (s.cfg.inPrompt.length + 1)]
  rfl

/-! What that turn leaves of the host's side does not depend on the link and the prompt. -/

theorem atInRead_takeTurn_input (s : State) :
    s.atInRead.takeTurn.input = (State.takeTurn^[s.cfg.inPrompt.length + 2] s).input := by
  rw [atInRead_takeTurn]
  rfl

theorem atInRead_takeTurn_inputEnded (s : State) :
    s.atInRead.takeTurn.inputEnded = (State.takeTurn^[s.cfg.inPrompt.length + 2] s).inputEnded := by
  rw [atInRead_takeTurn]
  rfl

theorem atInRead_takeTurn_stopRequested (s : State) :
    s.atInRead.takeTurn.stopRequested = (State.takeTurn^[s.cfg.inPrompt.length + 2] s).stopRequested := by
  rw [atInRead_takeTurn]
  rfl

/-- The prompt and its flush have had their turns. -/
theorem atInRead_schedule (s : State) : s.atInRead.schedule = s.schedule.drop (s.cfg.inPrompt.length + 1) :=
  takeTurns_schedule s _

/-- The character taken at the read; the link and the prompt do not meet it. -/
theorem atInRead_taken (s : State) (rest : List Byte) :
    { s.atInRead.takeTurn with input := rest } =
      { State.takeTurn^[s.cfg.inPrompt.length + 2] s with
        regs := s.regs.set .r7 s.pc, output := s.output ++ s.cfg.inPrompt, input := rest } := by
  rw [atInRead_takeTurn]
  rfl

/-- IN with a failing first operation: a write of the prompt, the flush after it, or the read. -/
theorem exec_inChar_of_failsFirstAt {s : State} {k : Nat} (hk : k ≤ s.cfg.inPrompt.length + 1) (fails : s.FailsFirstAt k) :
    exec .inChar s = .next ((s.afterOutput (k + 1) (s.cfg.inPrompt.take k)).afterFault .hostIOFailure) := by
  rcases Nat.lt_or_eq_of_le hk with prompt | rfl
  · rw [exec_inChar, writeThenFlush_link_failed _ _ (Nat.le_of_lt_succ prompt) fails]
  · have fails' : s.atInRead.FailsFirstAt 0 :=
      State.FailsFirstAt.after (k := 0) (s.cfg.inPrompt.length + 1) fails (atInRead_schedule s)
    have read := hostReadChar_of_failure (s := s.atInRead) (.inl fails'.2)
    rw [exec_inChar_of_prompt fails.1, inRead_of_failure read, State.raise_eq_afterFault, atInRead_takeTurn,
      List.take_of_length_le (Nat.le_succ _)]

/-- Settles O58: the ways the prompt can go, and from there the ways its read can go. -/
theorem inPromptsReadsAndEchoes : Obligations.InPromptsReadsAndEchoes := by
  unfold Obligations.InPromptsReadsAndEchoes
  intro s
  refine ⟨fun c rest queued => ?_, fun reliable empty => ?_, fun k => exec_inChar_of_failsFirstAt⟩
  · rw [← atInRead_takeTurn_input] at queued
    refine ⟨fun reliable => ?_, fun fails => ?_, fun fails => ?_⟩
    · have works : s.atInRead.HostWorksFor 3 := (reliable.worksFor _).after _ (atInRead_schedule s)
      rw [exec_inChar_of_prompt (reliable.worksFor _), inRead_of_worksFor queued works, atInRead_taken, zext8_eq]
      rfl
    · have fails' : s.atInRead.FailsFirstAt 1 :=
      State.FailsFirstAt.after (k := 1) (s.cfg.inPrompt.length + 1) fails (atInRead_schedule s)
      rw [exec_inChar_of_prompt (fails.1.mono (Nat.le_succ _)), inRead_of_echo_fails queued fails', atInRead_taken]
      rfl
    · have fails' : s.atInRead.FailsFirstAt 2 :=
      State.FailsFirstAt.after (k := 2) (s.cfg.inPrompt.length + 1) fails (atInRead_schedule s)
      rw [exec_inChar_of_prompt (fails.1.mono (by omega)), inRead_of_flush_fails queued fails', atInRead_taken]
      rfl
  · have works : s.atInRead.HostWorksFor 1 := (reliable.worksFor _).after _ (atInRead_schedule s)
    have empty' : s.atInRead.takeTurn.input = [] := (atInRead_takeTurn_input s).trans empty
    rw [exec_inChar_of_prompt (reliable.worksFor _), ← atInRead_takeTurn]
    refine ⟨fun goes_on calm => ?_, fun goes_on stop => ?_, fun ended => ?_⟩
    · have read := hostReadChar_of_no_input works.nextTurn_fails empty' ((atInRead_takeTurn_inputEnded s).trans goes_on)
      rw [inRead_of_no_input read, State.await_block _ _ ((atInRead_takeTurn_stopRequested s).trans calm)]
    · have read := hostReadChar_of_no_input works.nextTurn_fails empty' ((atInRead_takeTurn_inputEnded s).trans goes_on)
      rw [inRead_of_no_input read, State.await_stop _ _ ((atInRead_takeTurn_stopRequested s).trans stop)]
      rfl
    · have read := hostReadChar_of_failure (.inr ⟨empty', (atInRead_takeTurn_inputEnded s).trans ended⟩)
      rw [inRead_of_failure read, State.raise_eq_afterFault]

end Sys2Proof.Machine
end
